-- ==== Sys2Proof/Word.lean ====
section
/-!
DEFINITION. The two bit-vector types of the block (spec/00_scope.md R9, R11, R13): the 32-bit register word and
the byte. Bit 0 is the least significant bit and bit `i` has weight `2^i`.
-/

namespace Sys2Proof

/-- `Word32` of R13: an unsigned 32-bit value. -/
abbrev Word := BitVec 32

/-- `Byte` of R13: an unsigned 8-bit value. -/
abbrev Byte := BitVec 8

end Sys2Proof
end

