-- ==== Sys2Proof/Syntax.lean ====
section
/-!
DEFINITION. The operations of the block as syntax: the sixteen rows of the operation code map (spec/30_encoding.md
R81), their operand types (R83), the host's request as it is written down (an 8-bit code with typed values beside
it, R80, R86), and the pseudo-instructions (R88).
-/

namespace Sys2Proof

/-- The register index `w` of RD32 and WR32 (R82): one bit, `0` for TIME and `1` for DATE. -/
inductive Reg where
  /-- TIME, index 0, bus offset +0. -/
  | time
  /-- DATE, index 1, bus offset +4. -/
  | date
  deriving DecidableEq, Repr

/-- The CalendarTime record of R26. Its fields are mathematical integers (decision D2): a decoded month can be `-1`
and a decoded field can exceed its range. -/
structure CalendarTime where
  second  : Int
  minute  : Int
  hour    : Int
  weekday : Int
  mday    : Int
  month   : Int
  year    : Int
  deriving DecidableEq, Repr

/-- The names of the operations (R81, the rows of the opcode table). -/
inductive Mnemonic where
  | bin2bcd
  | bcd2bin
  | encodeTime
  | encodeDate
  | encode
  | decodeTime
  | decodeDate
  | decode
  | rd32
  | wr32
  | modeCheck
  | livenessCheck
  | epochCheck
  | probe
  | readTime
  | setTime
  deriving DecidableEq, Repr

/-- One operation with its operands (R81): one constructor for each row of the opcode table. An operand outside its
type cannot be written down (R83). -/
inductive Instr where
  /-- BIN2BCD, code 0x01: a binary value to one BCD byte (R100). -/
  | bin2bcd (v : Int)
  /-- BCD2BIN, code 0x02: one BCD byte to binary (R105). -/
  | bcd2bin (b : Byte)
  /-- ENCODE_TIME, code 0x10: pack the time-of-day fields (R120). -/
  | encodeTime (t : CalendarTime)
  /-- ENCODE_DATE, code 0x11: pack the date fields (R122). -/
  | encodeDate (t : CalendarTime)
  /-- ENCODE, code 0x12: pack both words (R124). -/
  | encode (t : CalendarTime)
  /-- DECODE_TIME, code 0x18: unpack a TIME word (R127). -/
  | decodeTime (tw : Word)
  /-- DECODE_DATE, code 0x19: unpack a DATE word (R129). -/
  | decodeDate (dw : Word)
  /-- DECODE, code 0x1A: unpack both words and ask the plausibility check (R131). -/
  | decode (tw dw : Word)
  /-- RD32, codes 0x20 and 0x21: one bus read (R150). -/
  | rd32 (w : Reg)
  /-- WR32, codes 0x28 and 0x29: one bus write (R152). -/
  | wr32 (w : Reg) (v : Word)
  /-- MODE_CHECK, code 0x30 (R170). -/
  | modeCheck (tw : Word)
  /-- LIVENESS_CHECK, code 0x31 (R173). -/
  | livenessCheck (r1 r2 : Word)
  /-- EPOCH_CHECK, code 0x32 (R178). -/
  | epochCheck (dw : Word)
  /-- PROBE, code 0x38: the one-time initialization (R185). -/
  | probe
  /-- READ_TIME, code 0x40 (R201). -/
  | readTime
  /-- SET_TIME, code 0x41 (R205). -/
  | setTime (t : CalendarTime)
  deriving DecidableEq, Repr

/-- The mnemonic of an operation. -/
def Instr.mnemonic : Instr → Mnemonic
  | .bin2bcd _ => .bin2bcd
  | .bcd2bin _ => .bcd2bin
  | .encodeTime _ => .encodeTime
  | .encodeDate _ => .encodeDate
  | .encode _ => .encode
  | .decodeTime _ => .decodeTime
  | .decodeDate _ => .decodeDate
  | .decode _ _ => .decode
  | .rd32 _ => .rd32
  | .wr32 _ _ => .wr32
  | .modeCheck _ => .modeCheck
  | .livenessCheck _ _ => .livenessCheck
  | .epochCheck _ => .epochCheck
  | .probe => .probe
  | .readTime => .readTime
  | .setTime _ => .setTime

/-- The types an operand can have (R83). -/
inductive OperandKind where
  /-- a mathematical integer (`v` of BIN2BCD) -/
  | int
  /-- an unsigned 8-bit value (`b` of BCD2BIN) -/
  | byte
  /-- a Word32 -/
  | word
  /-- a CalendarTime record -/
  | cal
  deriving DecidableEq, Repr

/-- One typed operand value, carried beside the operation code (R86). -/
inductive Operand where
  | int (v : Int)
  | byte (b : Byte)
  | word (w : Word)
  | cal (t : CalendarTime)
  deriving DecidableEq, Repr

/-- An operation as the host writes it: the 8-bit code, and the operand values beside it in the order of R81. -/
structure Request where
  code : Byte
  args : List Operand
  deriving DecidableEq, Repr

/-- One row of the operation code map of R81: the row matches a code whose bits under `mask` equal `pattern`. -/
structure OpcodeRow where
  pattern  : Byte
  mask     : Byte
  mnemonic : Mnemonic
  kinds    : List OperandKind
  deriving DecidableEq, Repr

/-- The pseudo-instructions of R88. -/
inductive Pseudo where
  | rdTime
  | rdDate
  | wrTime (v : Word)
  | wrDate (v : Word)
  deriving DecidableEq, Repr

end Sys2Proof
end

