-- ==== Sys2Proof/Config.lean ====
section
/-!
DEFINITION. What the spec leaves to a parameter or to a free draw (spec/00_scope.md R10; 92_eei_decisions.md D6, D8,
D9, D11, D12, D13, D18, D20). Every value here is an opaque constant: it has no body, so no proof can see what it is
and a statement about the machine holds whatever it is. The shared operations take the parameters as an argument of
type `Params`, as R10 says a model does; the machine itself is run at `Config.params`.
-/

namespace Sys2Proof

/-- The order of the two reads of READ_TIME (R10, decision D12: open, a claim must hold for both). -/
inductive ReadOrder where
  | timeFirst
  | dateFirst
  deriving DecidableEq, Repr, Inhabited

/-- The parameters of R10 and the two kinds of free draw of the spec. -/
structure Params where
  /-- `RTC_BASE`: the base address of the register region (R51, D6). DESIGN CHOICE (log 23): R10 types it 'address
  (platform width)' and gives no width; the model takes an unbounded natural number. -/
  rtcBase : Nat
  /-- `REGION_OK`: whether resource acquisition succeeded (R185, D18). -/
  regionOk : Bool
  /-- `IS_VALID`: the external plausibility check, a total function of the CalendarTime value alone (R132, D13). -/
  isValid : CalendarTime → Bool
  /-- `READ_ORDER`: which word READ_TIME reads first (R201, D12). -/
  readOrder : ReadOrder
  /-- `LIVENESS_DELAY`: the length of the liveness wait (R175, D11). The model models no time, so no rule reads it. -/
  livenessDelay : Nat
  /-- `RTC_STEP`: what the RTC agent has made of the pair (TIME, DATE) at its `n`-th opportunity, by any number of
  its own steps, none included (R156, D9). Unconstrained, so every pair may follow every pair. -/
  rtcMove : Nat → Word × Word → Word × Word
  /-- The `n`-th free draw of a read's unused bits (R24, R150, D8). -/
  unusedDraw : Nat → Word

/-- `RTC_BASE` of the platform (D6: open). -/
opaque Config.rtcBase : Nat

/-- `REGION_OK`, the excluded collaborator's answer (D18: open). -/
opaque Config.regionOk : Bool

/-- `IS_VALID`, the external subsystem's plausibility check (D13: open). -/
opaque Config.isValid : CalendarTime → Bool

/-- `READ_ORDER` (D12: open). -/
opaque Config.readOrder : ReadOrder

/-- `LIVENESS_DELAY` (D11: open). -/
opaque Config.livenessDelay : Nat

/-- The RTC agent's moves, a free value for each opportunity it has to move (D9: open). -/
opaque Config.rtcMove : Nat → Word × Word → Word × Word

/-- The free draws of the unused bits of a read (D8). -/
opaque Config.unusedDraw : Nat → Word

/-- What the battery-backed peripheral holds in (TIME, DATE) at the start of a run (R36, D20: a free draw). -/
opaque Config.powerOn : Word × Word

/-- The parameters the machine runs at: each one opaque. -/
def Config.params : Params where
  rtcBase := Config.rtcBase
  regionOk := Config.regionOk
  isValid := Config.isValid
  readOrder := Config.readOrder
  livenessDelay := Config.livenessDelay
  rtcMove := Config.rtcMove
  unusedDraw := Config.unusedDraw

end Sys2Proof
end

