-- ==== Sys2Proof/Machine/Operands.lean ====
section
/-!
DEFINITION. The bit formats of the two words and the operand predicates: the masks of spec/30_encoding.md R72, field
assembly and extraction (R73), the BCD byte format (R74), the in-contract predicate of spec/10_state.md R27, and the
named constants of spec/00_scope.md R19.
-/

namespace Sys2Proof.Machine

/-- `SENTINEL` (R19): the TIME value the source calls "not ticking". -/
def sentinel : Word := 0x01000000

/-- `REPAIR_DATE` (R19, R180). -/
def repairDate : Word := 0x00130101

/-- `EPOCH_LIMIT` (R19). -/
def epochLimit : Nat := 38

/-- `SEC_MASK` (R72). -/
def secMask : Word := 0x0000007F
/-- `MIN_MASK` (R72). -/
def minMask : Word := 0x00007F00
/-- `HOUR_MASK` (R72). -/
def hourMask : Word := 0x003F0000
/-- `MODE_MASK` (R72). -/
def modeMask : Word := 0x00400000
/-- `WDAY_MASK` (R72). -/
def wdayMask : Word := 0x07000000
/-- `DAY_MASK` (R72). -/
def dayMask : Word := 0x0000003F
/-- `MON_MASK` (R72). -/
def monMask : Word := 0x00003F00
/-- `YEAR_MASK` (R72). -/
def yearMask : Word := 0x00FF0000

/-- `TIME_CONTRACT_MASK` and `DATE_CONTRACT_MASK` (R72): the defined bits of a register. -/
def contractMask : Reg → Word
  | .time => 0x077F7F7F
  | .date => 0x00FF3F3F

/-- `TIME_UNUSED_MASK` and `DATE_UNUSED_MASK` (R72): the unused bits of a register. -/
def unusedMask : Reg → Word
  | .time => 0xF8808080
  | .date => 0xFF00C0C0

/-- The field of width `n` at offset `o` of a word, as a byte (R73: `w[o+n-1:o]`). -/
def field (o n : Nat) (w : Word) : Byte :=
  (w.extractLsb' o n).setWidth 8

/-- A field value placed at offset `o` (R73: `zext_32(b) << o`). -/
def place (o : Nat) (b : Byte) : Word :=
  (b.setWidth 32) <<< o

/-- A byte whose two nibbles are decimal digits (R74). -/
def validBcd (b : Byte) : Bool :=
  decide ((b >>> 4).toNat ≤ 9) && decide ((b &&& 0x0F).toNat ≤ 9)

/-- The fields a contract check can find out of range: the operand of BIN2BCD, and the seven of CalendarTime in the
order in which R223 names the first one. -/
inductive Field where
  | value
  | second
  | minute
  | hour
  | weekday
  | mday
  | month
  | year
  deriving DecidableEq, Repr

/-- `InContractTime(t)` of R27. -/
abbrev InContractTime (t : CalendarTime) : Prop :=
  (0 ≤ t.second ∧ t.second ≤ 59) ∧ (0 ≤ t.minute ∧ t.minute ≤ 59) ∧ (0 ≤ t.hour ∧ t.hour ≤ 23) ∧
    (0 ≤ t.weekday ∧ t.weekday ≤ 6)

/-- `InContractDate(t)` of R27. -/
abbrev InContractDate (t : CalendarTime) : Prop :=
  (1 ≤ t.mday ∧ t.mday ≤ 31) ∧ (0 ≤ t.month ∧ t.month ≤ 11) ∧ 0 ≤ t.year

/-- `InContract(t)` of R27. -/
abbrev InContract (t : CalendarTime) : Prop :=
  InContractTime t ∧ InContractDate t

/-- The first time field out of its range, in the order of R223. -/
def badTimeField (t : CalendarTime) : Option Field :=
  if ¬ (0 ≤ t.second ∧ t.second ≤ 59) then some .second
  else if ¬ (0 ≤ t.minute ∧ t.minute ≤ 59) then some .minute
  else if ¬ (0 ≤ t.hour ∧ t.hour ≤ 23) then some .hour
  else if ¬ (0 ≤ t.weekday ∧ t.weekday ≤ 6) then some .weekday
  else none

/-- The first date field out of its range, in the order of R223. -/
def badDateField (t : CalendarTime) : Option Field :=
  if ¬ (1 ≤ t.mday ∧ t.mday ≤ 31) then some .mday
  else if ¬ (0 ≤ t.month ∧ t.month ≤ 11) then some .month
  else if ¬ (0 ≤ t.year) then some .year
  else none

/-- The first of the seven fields out of its range, in the order of R223. -/
def badField (t : CalendarTime) : Option Field :=
  match badTimeField t with
  | some f => some f
  | none => badDateField t

/-- The bus offset of a register: `4 * w` (R51, R82). -/
def regOffset : Reg → Nat
  | .time => 0
  | .date => 4

/-- The register an access of `bytes` bytes at a byte offset from the region's base reaches: only a whole aligned
32-bit word at +0 or +4 reaches one (R51, R52, R53; decisions D4, D6). -/
def regAtOffset (offset bytes : Nat) : Option Reg :=
  if bytes = 4 then
    match offset with
    | 0 => some .time
    | 4 => some .date
    | _ => none
  else none

/-- The address of a register: `RTC_BASE + 4 * w` (R14, R51). DESIGN CHOICE (log 23): addresses are unbounded natural
numbers, so the sum never wraps. -/
def regAddress (p : Params) (w : Reg) : Nat :=
  p.rtcBase + regOffset w

/-- The register an access at an address reaches (R51, R52, R53). DESIGN CHOICE (log 23): every natural number is an
address. -/
def regAtAddress (p : Params) (address bytes : Nat) : Option Reg :=
  if p.rtcBase ≤ address then regAtOffset (address - p.rtcBase) bytes else none

end Sys2Proof.Machine
end

