-- ==== Sys2Proof/Machine/State.lean ====
section
/-!
DEFINITION. The machine's state as plain data (spec/10_state.md): the register pair, the phase, the trace, the
position inside an operation in progress (R35), the host's inputs (the operations still to be issued, the admitted
subset, the reset line), and two counters of the model's own that number the free draws. Then the reasons a step can
stop (spec/60_exceptions.md R220, R221) and the state after reset (R36).
-/

namespace Sys2Proof.Machine

/-- The error kinds of R220. -/
inductive ErrorKind where
  | unsupportedMode
  | notTicking
  | implausibleDate
  | regionUnavailable
  | noDevice
  | outOfContract
  | illegalOperation
  | probeRepeated
  deriving DecidableEq, Repr

/-- The classes of R221. -/
inductive ErrorClass where
  /-- ends the operation with `Result(Err(e))` -/
  | returnedError
  /-- ends PROBE and sets the phase to `FAILED(e)` -/
  | terminalFailure
  /-- the operation has no meaning for its operands -/
  | fault
  /-- the operation is not admitted -/
  | refusal
  deriving DecidableEq, Repr

/-- The reasons for which initialization fails (R30). -/
inductive FailReason where
  | regionUnavailable
  | unsupportedMode
  | notTicking
  deriving DecidableEq, Repr

/-- The block's phase (R30). -/
inductive Phase where
  /-- before PROBE has run -/
  | uninit
  /-- PROBE succeeded: READ_TIME and SET_TIME are available -/
  | ready
  /-- PROBE failed, until reset -/
  | failed (reason : FailReason)
  deriving DecidableEq, Repr

/-- What an operation ends with (R32, the result column of R81). -/
inductive Result where
  /-- a Byte (BIN2BCD) -/
  | byte (b : Byte)
  /-- an integer (BCD2BIN) -/
  | integer (n : Int)
  /-- a Word32 (ENCODE_TIME, ENCODE_DATE) -/
  | word (w : Word)
  /-- a TIME word and a DATE word (ENCODE) -/
  | words (tw dw : Word)
  /-- (second, minute, hour, weekday) (DECODE_TIME) -/
  | timeFields (second minute hour weekday : Int)
  /-- (mday, month, year) (DECODE_DATE) -/
  | dateFields (mday month year : Int)
  /-- `Ok(t)` (DECODE, READ_TIME) -/
  | calendar (t : CalendarTime)
  /-- `Ok` (MODE_CHECK, LIVENESS_CHECK) -/
  | ok
  /-- NoRepair (EPOCH_CHECK) -/
  | noRepair
  /-- Repair(v) (EPOCH_CHECK) -/
  | repair (v : Word)
  /-- ready (PROBE) -/
  | ready
  /-- failed(reason) (PROBE) -/
  | failed (reason : FailReason)
  /-- Success (SET_TIME) -/
  | success
  /-- `Err(e)` -/
  | err (e : ErrorKind)
  deriving DecidableEq, Repr

/-- The notices the block logs (R181, R232): only the epoch repair's. -/
inductive Notice where
  | epochRepair
  deriving DecidableEq, Repr

/-- The observable events of R32. -/
inductive Event where
  /-- a bus read of register `w` that returned `v` -/
  | read (w : Reg) (v : Word)
  /-- a bus write of `v` to register `w` -/
  | write (w : Reg) (v : Word)
  /-- the liveness wait -/
  | wait
  /-- a logged notice -/
  | log (n : Notice)
  /-- the end of an operation -/
  | result (r : Result)
  deriving DecidableEq, Repr

/-- A position inside PROBE (R35, R185): what the last step of it did, with the words read that a later line of the
pseudocode uses. -/
inductive ProbePos where
  /-- the mode-check read returned `r0` -/
  | modeRead (r0 : Word)
  /-- the first liveness read returned `r1` -/
  | liveRead (r1 : Word)
  /-- the liveness wait is over -/
  | waited (r1 : Word)
  /-- the confirming read returned `r2` -/
  | confirmed (r1 r2 : Word)
  /-- the DATE read returned `d` -/
  | dateRead (d : Word)
  /-- the repair write is done -/
  | repaired
  /-- the notice is logged -/
  | logged
  deriving DecidableEq, Repr

/-- A position inside READ_TIME (R35, R201). -/
inductive ReadPos where
  /-- TIME was read first and returned `tw` -/
  | gotTime (tw : Word)
  /-- DATE was read first and returned `dw` -/
  | gotDate (dw : Word)
  /-- both words are read -/
  | gotBoth (tw dw : Word)
  deriving DecidableEq, Repr

/-- A position inside SET_TIME (R35, R205). -/
inductive SetPos where
  /-- TIME is written, `dw` is the encoded DATE word still to write -/
  | timeWritten (dw : Word)
  /-- both words are written -/
  | dateWritten
  deriving DecidableEq, Repr

/-- The operation in progress and the position in its pseudocode (R35). Every other operation is one step, so only
these three are ever in progress at a step boundary. -/
inductive Progress where
  /-- no operation is in progress -/
  | idle
  | probe (pos : ProbePos)
  | readTime (pos : ReadPos)
  | setTime (t : CalendarTime) (pos : SetPos)
  deriving DecidableEq, Repr

/-- The admitted subset of operations (R85): the model's selector between the two subsets of the spec. -/
inductive Level where
  /-- only PROBE, READ_TIME and SET_TIME are admitted -/
  | host
  /-- every row of R81 is admitted -/
  | component
  deriving DecidableEq, Repr

/-- The reasons a step stops with a fault. -/
inductive Fault where
  /-- OutOfContract (R220 code 16): raised by BIN2BCD, ENCODE_TIME, ENCODE_DATE, ENCODE and SET_TIME when a value is
  out of its range; the mark names the operation and the first field. Safe: the machine stops where the source calls
  the input a caller contract violation and the spec decides for a fault (R100, D3). -/
  | outOfContract (op : Mnemonic) (field : Field)
  deriving DecidableEq, Repr

/-- The reasons a step is refused. -/
inductive Refusal where
  /-- An arm of `exec` that has no meaning yet. No arm of this model raises it. Safe: nothing is claimed. -/
  | notModelled (mnemonic : String)
  /-- IllegalOperation (R220 code 32): the decoder, on a code that no row of R81 matches (R84). Safe: the spec says
  refuse. -/
  | illegalOperation (code : Byte)
  /-- The decoder, on operands that are not of the row's kinds. Safe: R83 says such a request cannot be written
  down. -/
  | badOperands (op : Mnemonic)
  /-- ProbeRepeated (R220 code 33): PROBE in a phase that is not UNINIT (R185). Safe: the spec says refuse. -/
  | probeRepeated
  /-- Fetching an operation that the admitted subset leaves out (R85). Safe: the spec says refuse. -/
  | notAdmitted (op : Mnemonic)
  /-- Any operation started while another is in progress (R62, D28: the host has no such move). Safe: the model
  stops; no step of the machine comes here. -/
  | operationInProgress
  /-- A bus access that is not a whole aligned 32-bit word at +0 or +4 (R52, R53). Raised by `memRead` and
  `memWrite` only; no operation can express one. Safe: the spec says refuse. -/
  | noSuchRegister (address bytes : Nat)
  deriving DecidableEq, Repr

/-- The state of the machine. -/
structure State where
  /-- the TIME register (R20, R22): its contract bits; unused bits are not stored (R152) -/
  time : Word
  /-- the DATE register (R20, R23) -/
  date : Word
  /-- the block's phase (R30) -/
  phase : Phase
  /-- the observable events so far, oldest first (R32) -/
  trace : List Event
  /-- the operation in progress and the position in it (R35) -/
  progress : Progress
  /-- host input: the operations the host has still to issue, in order (R16, R80) -/
  program : List Request
  /-- host input: which subset of operations is admitted (R85) -/
  level : Level
  /-- host input: the host is being powered on or rebooted (R250) -/
  resetLine : Bool
  /-- the model's own: how many free draws of unused bits have been taken -/
  draws : Nat
  /-- the model's own: how many opportunities to move the RTC agent has had -/
  moves : Nat
  deriving DecidableEq, Repr

/-- What one operation, or one step, answers. -/
abbrev Out := Host.Outcome State Fault Refusal

/-- The state after reset (R36): phase UNINIT, trace empty, nothing in progress; TIME and DATE are whatever the
battery-backed peripheral holds, a free draw (D20). -/
def State.reset : State where
  time := Config.powerOn.1 &&& contractMask .time
  date := Config.powerOn.2 &&& contractMask .date
  phase := .uninit
  trace := []
  progress := .idle
  program := []
  level := .component
  resetLine := false
  draws := 0
  moves := 0

end Sys2Proof.Machine
end

