-- ==== Sys2Proof/Machine/Ops.lean ====
section
/-!
DEFINITION. The named operations over the state that every meaning is made of: the registers (spec/10_state.md R20,
spec/42_register_access.md), the trace (R32), how an operation is suspended, ended or failed, the RTC agent's step
(R156), the host's reset (R250), and the error kinds' codes and classes (spec/60_exceptions.md R220, R221). The block
has no trap mechanism (R224), so ending an operation with an error is the one shared operation `finish`, and ending
PROBE in failure the one shared operation `failProbe`.
-/

namespace Sys2Proof.Machine

/-- `REG[w]`: the contract content of a register (R20). -/
def reg (w : Reg) (s : State) : Word :=
  match w with
  | .time => s.time
  | .date => s.date

/-- `REG[w] <- v & CONTRACT_MASK(w)` (R152): unused bits are not kept. -/
def setReg (w : Reg) (v : Word) (s : State) : State :=
  match w with
  | .time => { s with time := v &&& contractMask .time }
  | .date => { s with date := v &&& contractMask .date }

/-- `emit ev` (R14): append an event to the trace. -/
def emit (e : Event) (s : State) : State :=
  { s with trace := s.trace ++ [e] }

/-- Stop at a step boundary inside an operation, with the position to go on from (R14, R35). -/
def suspend (q : Progress) (s : State) : State :=
  { s with progress := q }

/-- End the operation in progress with a result (R14, R32). -/
def finish (r : Result) (s : State) : State :=
  { s with trace := s.trace ++ [.result r], progress := .idle }

/-- End PROBE in failure: `phase <- FAILED(reason); emit Result(failed(reason))` (R185, R221). -/
def failProbe (reason : FailReason) (s : State) : State :=
  { s with
    phase := .failed reason
    trace := s.trace ++ [.result (.failed reason)]
    progress := .idle }

/-- End PROBE in success: `phase <- READY; emit Result(ready)` (R185). -/
def readyProbe (s : State) : State :=
  { s with phase := .ready, trace := s.trace ++ [.result .ready], progress := .idle }

/-- The value a bus read of a register returns (R150): its contract bits, and a free draw in the unused bits. -/
def readValue (p : Params) (w : Reg) (s : State) : Word :=
  (reg w s &&& contractMask w) ||| (p.unusedDraw s.draws &&& unusedMask w)

/-- The state after a bus read (R150): the event is appended and the draw is used up; the register is unchanged. -/
def afterRead (p : Params) (w : Reg) (s : State) : State :=
  { s with trace := s.trace ++ [.read w (readValue p w s)], draws := s.draws + 1 }

/-- The state after a bus write (R152). -/
def afterWrite (w : Reg) (v : Word) (s : State) : State :=
  emit (.write w v) (setReg w v s)

/-- A bus read by address and size (R14 `MemRead`; R51, R52, R53): any access but a whole register is refused. -/
def memRead (p : Params) (address bytes : Nat) (s : State) : Except Refusal (Word × State) :=
  match regAtAddress p address bytes with
  | some w => .ok (readValue p w s, afterRead p w s)
  | none => .error (.noSuchRegister address bytes)

/-- A bus write by address and size (R14 `MemWrite`; R51, R52, R53). -/
def memWrite (p : Params) (address bytes : Nat) (v : Word) (s : State) : Except Refusal State :=
  match regAtAddress p address bytes with
  | some w => .ok (afterWrite w v s)
  | none => .error (.noSuchRegister address bytes)

/-- An operation starts only when none is in progress (R62, D28). -/
def whenIdle (s : State) (o : Out) : Out :=
  match s.progress with
  | .idle => o
  | .probe _ => .refused .operationInProgress
  | .readTime _ => .refused .operationInProgress
  | .setTime _ _ => .refused .operationInProgress

/-- What the registers keep of a pair that the RTC agent chooses (R156): the contract bits of each word. -/
def rtcStored (q : Word × Word) : Word × Word :=
  (q.1 &&& contractMask .time, q.2 &&& contractMask .date)

/-- The RTC agent's opportunity at a step boundary (R156): what it has made of the register pair by then. -/
def rtcTick (p : Params) (s : State) : State :=
  let q := rtcStored (p.rtcMove s.moves (s.time, s.date))
  { s with
    time := q.1
    date := q.2
    moves := s.moves + 1 }

/-- One RTC_TICK (R156) under the relation `R`, the parameter RTC_STEP: the agent chooses a pair related to the pair in
the registers, and the registers keep its contract bits. -/
def RtcTickTo (R : Word × Word → Word × Word → Prop) (q r : Word × Word) : Prop :=
  ∃ c, R q c ∧ r = rtcStored c

/-- A field that holds valid BCD between two BCD bytes (R22, R23); on valid BCD the bytes' order is the digits' (R101). -/
def rtcFieldIn (low high : Byte) (b : Byte) : Bool :=
  validBcd b && decide (low ≤ b) && decide (b ≤ high)

/-- The pair is one whose behaviour R157 does not leave open: the 12h-mode flag is clear and every field holds valid BCD
within its range (R22, R23). -/
def rtcSupported (q : Word × Word) : Bool :=
  !q.1.getLsbD 22 &&
    rtcFieldIn 0 0x59 (field 0 7 q.1) && rtcFieldIn 0 0x59 (field 8 7 q.1) && rtcFieldIn 0 0x23 (field 16 6 q.1) &&
    rtcFieldIn 0 6 (field 24 3 q.1) &&
    rtcFieldIn 1 0x31 (field 0 6 q.2) && rtcFieldIn 1 0x12 (field 8 6 q.2) && rtcFieldIn 0 0x99 (field 16 8 q.2)

/-- A relation may stand for RTC_STEP only where it leaves the pairs of R157 unconstrained (D30): from such a pair it
lets the agent choose any pair. -/
def RtcStepAdmitted (R : Word × Word → Word × Word → Prop) : Prop :=
  ∀ q r, rtcSupported q = false → R q r

/-- The RTC agent moves as the relation `R` (R156: RTC_STEP) lets it, and `R` is one that R157 admits: at each
opportunity the agent takes any number of RTC_TICKs, none included, each of which starts from what the registers keep of
the one before. The default RTC_STEP relates every pair to every pair. -/
def RtcWithin (R : Word × Word → Word × Word → Prop) (p : Params) : Prop :=
  RtcStepAdmitted R ∧
  ∀ n q, ∃ r, Relation.ReflTransGen (RtcTickTo R) q r ∧ rtcStored (p.rtcMove n q) = rtcStored r

/-- The host's power-on or reboot (R250): phase UNINIT, trace empty, the operation in progress is gone; TIME and DATE
belong to the battery-backed peripheral and stay. -/
def hostReset (s : State) : State :=
  { s with phase := .uninit, trace := [], progress := .idle, resetLine := false }

/-- The numeric codes of R220 (decision D16). -/
def errorCode : ErrorKind → Nat
  | .unsupportedMode => 1
  | .notTicking => 2
  | .implausibleDate => 3
  | .regionUnavailable => 4
  | .noDevice => 5
  | .outOfContract => 16
  | .illegalOperation => 32
  | .probeRepeated => 33

/-- The classes of R220. -/
def errorClass : ErrorKind → ErrorClass
  | .unsupportedMode => .terminalFailure
  | .notTicking => .terminalFailure
  | .implausibleDate => .returnedError
  | .regionUnavailable => .terminalFailure
  | .noDevice => .returnedError
  | .outOfContract => .fault
  | .illegalOperation => .refusal
  | .probeRepeated => .refusal

/-- The error kind of a failure reason (R220). -/
def failKind : FailReason → ErrorKind
  | .regionUnavailable => .regionUnavailable
  | .unsupportedMode => .unsupportedMode
  | .notTicking => .notTicking

/-- The error kind a fault marks (R220). -/
def faultKind : Fault → ErrorKind
  | .outOfContract _ _ => .outOfContract

/-- The error kind a refusal marks, where R220 names one; the model's own refusals have none. -/
def refusalKind (r : Refusal) : Option ErrorKind :=
  match r with
  | .illegalOperation _ => some .illegalOperation
  | .probeRepeated => some .probeRepeated
  | _ => none

end Sys2Proof.Machine
end

