-- ==== Sys2Proof/Machine/Access.lean ====
section
/-!
DEFINITION. The two bus transactions of spec/42_register_access.md as operations of their own: RD32 (R150) and WR32
(R152). Each is one bus transaction and one step, and appends the one event of its pseudocode.
-/

namespace Sys2Proof.Machine

/-- RD32 at given parameters (R150): the value returned is the one in the `Read` event. -/
def readStep (p : Params) (w : Reg) (s : State) : Out :=
  whenIdle s <| .next (afterRead p w s)

/-- RD32 (R150). -/
def execRd32 (w : Reg) (s : State) : Out :=
  readStep Config.params w s

/-- WR32 (R152). -/
def execWr32 (w : Reg) (v : Word) (s : State) : Out :=
  whenIdle s <| .next (afterWrite w v s)

end Sys2Proof.Machine
end

