-- ==== Sys2Proof/Machine/Flags.lean ====
section
/-!
DEFINITION. The block's status bits (spec/10_state.md R34): it has no condition codes, only the 12h-mode flag, bit 22
of a TIME word (R25), and the phase (R30). No operation sets a flag as a side effect.
-/

namespace Sys2Proof.Machine

/-- `MODE_BIT` of R19: the place of the 12h-mode flag. -/
def modeBit : Nat := 22

/-- The 12h-mode flag of a TIME word (R25): set means 12-hour mode. -/
def modeFlag (tw : Word) : Bool :=
  tw.getLsbD modeBit

/-- The Device Adapter is available: the phase is READY (R200). -/
def adapterReady (s : State) : Bool :=
  decide (s.phase = .ready)

/-- PROBE has not run since reset (R30). -/
def uninitialised (s : State) : Bool :=
  decide (s.phase = .uninit)

end Sys2Proof.Machine
end

