-- ==== Sys2Proof/Machine/Bcd.lean ====
section
/-!
DEFINITION. The field conversions of spec/40_bcd_codec.md: BIN2BCD (R100) and BCD2BIN (R105), as pure functions and
as operations.
-/

namespace Sys2Proof.Machine

/-- The source's formula `((V/10)<<4) | (V%10)` (R100), on a value in contract. -/
def bcdByte (v : Nat) : Byte :=
  BitVec.ofNat 8 (((v / 10) <<< 4) ||| (v % 10))

/-- The source's formula `((B>>4)*10) + (B&0xF)` (R105), on every byte. -/
def bcd2bin (b : Byte) : Nat :=
  (b >>> 4).toNat * 10 + (b &&& 0x0F).toNat

/-- BIN2BCD (R100): a value outside 0..99 faults. -/
def execBin2bcd (v : Int) (s : State) : Out :=
  whenIdle s <|
    if 0 ≤ v ∧ v ≤ 99 then .next (finish (.byte (bcdByte v.toNat)) s)
    else .fault (.outOfContract .bin2bcd .value)

/-- BCD2BIN (R105): no error; invalid BCD is computed by the formula. -/
def execBcd2bin (b : Byte) (s : State) : Out :=
  whenIdle s <| .next (finish (.integer (bcd2bin b)) s)

end Sys2Proof.Machine
end

