-- ==== Sys2Proof/Machine/Packing.lean ====
section
/-!
DEFINITION. The Register Codec of spec/41_register_packing.md: packing a CalendarTime into the TIME and DATE words
(R120, R122, R124) and unpacking them (R127, R129, R131). No operation here reads or writes a register.
-/

namespace Sys2Proof.Machine

/-- The TIME word of a record whose time fields are in contract (R120). -/
def timeWord (t : CalendarTime) : Word :=
  place 0 (bcdByte t.second.toNat) ||| place 8 (bcdByte t.minute.toNat) ||| place 16 (bcdByte t.hour.toNat) |||
    place 24 (bcdByte t.weekday.toNat)

/-- The DATE word of a record whose date fields are in contract (R122). -/
def dateWord (t : CalendarTime) : Word :=
  place 0 (bcdByte t.mday.toNat) ||| place 8 (bcdByte (t.month + 1).toNat) |||
    place 16 (bcdByte (t.year % 100).toNat)

/-- A field of a word, decoded from BCD (R73, R105). -/
def fieldValue (o n : Nat) (w : Word) : Int :=
  bcd2bin (field o n w)

/-- `second` of DECODE_TIME (R127). -/
def decSecond (tw : Word) : Int := fieldValue 0 7 tw
/-- `minute` of DECODE_TIME (R127). -/
def decMinute (tw : Word) : Int := fieldValue 8 7 tw
/-- `hour` of DECODE_TIME (R127). -/
def decHour (tw : Word) : Int := fieldValue 16 6 tw
/-- `weekday` of DECODE_TIME (R127). -/
def decWeekday (tw : Word) : Int := fieldValue 24 3 tw
/-- `mday` of DECODE_DATE (R129). -/
def decMday (dw : Word) : Int := fieldValue 0 6 dw
/-- `month` of DECODE_DATE (R129): re-based, so it may be `-1`. -/
def decMonth (dw : Word) : Int := fieldValue 8 6 dw - 1
/-- `year` of DECODE_DATE (R129): relative to 1900. -/
def decYear (dw : Word) : Int := fieldValue 16 8 dw + 100

/-- The record that a pair of words decodes to (R131, before the plausibility check). -/
def decodedTime (tw dw : Word) : CalendarTime where
  second := decSecond tw
  minute := decMinute tw
  hour := decHour tw
  weekday := decWeekday tw
  mday := decMday dw
  month := decMonth dw
  year := decYear dw

/-- DECODE's answer (R131): the record as it stands, or ImplausibleDate where the plausibility check rejects it. -/
def decodeResult (p : Params) (tw dw : Word) : Result :=
  if p.isValid (decodedTime tw dw) then .calendar (decodedTime tw dw) else .err .implausibleDate

/-- ENCODE_TIME (R120). -/
def execEncodeTime (t : CalendarTime) (s : State) : Out :=
  whenIdle s <|
    match badTimeField t with
    | some f => .fault (.outOfContract .encodeTime f)
    | none => .next (finish (.word (timeWord t)) s)

/-- ENCODE_DATE (R122). -/
def execEncodeDate (t : CalendarTime) (s : State) : Out :=
  whenIdle s <|
    match badDateField t with
    | some f => .fault (.outOfContract .encodeDate f)
    | none => .next (finish (.word (dateWord t)) s)

/-- ENCODE (R124): all seven fields are checked first. -/
def execEncode (t : CalendarTime) (s : State) : Out :=
  whenIdle s <|
    match badField t with
    | some f => .fault (.outOfContract .encode f)
    | none => .next (finish (.words (timeWord t) (dateWord t)) s)

/-- DECODE_TIME (R127). -/
def execDecodeTime (tw : Word) (s : State) : Out :=
  whenIdle s <| .next (finish (.timeFields (decSecond tw) (decMinute tw) (decHour tw) (decWeekday tw)) s)

/-- DECODE_DATE (R129). -/
def execDecodeDate (dw : Word) (s : State) : Out :=
  whenIdle s <| .next (finish (.dateFields (decMday dw) (decMonth dw) (decYear dw)) s)

/-- DECODE at given parameters (R131). -/
def decodeStep (p : Params) (tw dw : Word) (s : State) : Out :=
  whenIdle s <| .next (finish (decodeResult p tw dw) s)

/-- DECODE (R131). -/
def execDecode (tw dw : Word) (s : State) : Out :=
  decodeStep Config.params tw dw s

end Sys2Proof.Machine
end

