-- ==== Sys2Proof/Machine/Adapter.lean ====
section
/-!
DEFINITION. The Device Adapter of spec/44_device_adapter.md: READ_TIME (R201) and SET_TIME (R205), step by step. Both
answer NoDevice outside READY (R200). Neither repeats a check of the Clock Guard (R190).
-/

namespace Sys2Proof.Machine

/-- The first step of READ_TIME (R201): the first of the two reads, in the order `READ_ORDER`, or NoDevice. -/
def readTimeStart (p : Params) (s : State) : State :=
  if adapterReady s then
    match p.readOrder with
    | .timeFirst => suspend (.readTime (.gotTime (readValue p .time s))) (afterRead p .time s)
    | .dateFirst => suspend (.readTime (.gotDate (readValue p .date s))) (afterRead p .date s)
  else finish (.err .noDevice) s

/-- A later step of READ_TIME (R201): the other read, then the decoded answer. -/
def readTimeResume (p : Params) (pos : ReadPos) (s : State) : State :=
  match pos with
  | .gotTime tw => suspend (.readTime (.gotBoth tw (readValue p .date s))) (afterRead p .date s)
  | .gotDate dw => suspend (.readTime (.gotBoth (readValue p .time s) dw)) (afterRead p .time s)
  | .gotBoth tw dw => finish (decodeResult p tw dw) s

/-- One step of READ_TIME at given parameters (R201). -/
def readTimeStep (p : Params) (s : State) : Out :=
  match s.progress with
  | .idle => .next (readTimeStart p s)
  | .readTime pos => .next (readTimeResume p pos s)
  | .probe _ => .refused .operationInProgress
  | .setTime _ _ => .refused .operationInProgress

/-- READ_TIME (R201). -/
def execReadTime (s : State) : Out :=
  readTimeStep Config.params s

/-- The first step of SET_TIME (R205): NoDevice, then the contract of all seven fields, then the TIME write. -/
def setTimeStart (t : CalendarTime) (s : State) : Out :=
  if adapterReady s then
    match badField t with
    | some f => .fault (.outOfContract .setTime f)
    | none => .next (suspend (.setTime t (.timeWritten (dateWord t))) (afterWrite .time (timeWord t) s))
  else .next (finish (.err .noDevice) s)

/-- A later step of SET_TIME (R205): the DATE write, then the answer. -/
def setTimeResume (t : CalendarTime) (pos : SetPos) (s : State) : State :=
  match pos with
  | .timeWritten dw => suspend (.setTime t .dateWritten) (afterWrite .date dw s)
  | .dateWritten => finish .success s

/-- SET_TIME (R205): one step of it; the operation in progress is gone on with only by the SET_TIME it came from. -/
def execSetTime (t : CalendarTime) (s : State) : Out :=
  match s.progress with
  | .idle => setTimeStart t s
  | .setTime t' pos => if t' = t then .next (setTimeResume t pos s) else .refused .operationInProgress
  | .probe _ => .refused .operationInProgress
  | .readTime _ => .refused .operationInProgress

end Sys2Proof.Machine
end

