-- ==== Sys2Proof/Machine/Guard.lean ====
section
/-!
DEFINITION. The Clock Guard of spec/43_clock_guard.md: the three pure checks (R170, R173, R178) and PROBE (R185), which
runs them against the live registers step by step.
-/

namespace Sys2Proof.Machine

/-- MODE_CHECK (R170): `none` is Ok. -/
def modeCheck (tw : Word) : Option FailReason :=
  if modeFlag tw then some .unsupportedMode else none

/-- LIVENESS_CHECK (R173): the whole words are compared, unused bits included; `none` is Ok. -/
def livenessCheck (r1 r2 : Word) : Option FailReason :=
  if r1 = sentinel ∧ r2 = sentinel then some .notTicking else none

/-- EPOCH_CHECK (R178): `some v` is Repair(v), `none` is NoRepair. -/
def epochCheck (dw : Word) : Option Word :=
  if epochLimit ≤ bcd2bin (field 16 8 dw) then some repairDate else none

/-- The result of a check that answers Ok or an error. -/
def checkResult : Option FailReason → Result
  | none => .ok
  | some e => .err (failKind e)

/-- The result of EPOCH_CHECK. -/
def epochResult : Option Word → Result
  | none => .noRepair
  | some v => .repair v

/-- MODE_CHECK as an operation (R170). -/
def execModeCheck (tw : Word) (s : State) : Out :=
  whenIdle s <| .next (finish (checkResult (modeCheck tw)) s)

/-- LIVENESS_CHECK as an operation (R173). -/
def execLivenessCheck (r1 r2 : Word) (s : State) : Out :=
  whenIdle s <| .next (finish (checkResult (livenessCheck r1 r2)) s)

/-- EPOCH_CHECK as an operation (R178). -/
def execEpochCheck (dw : Word) (s : State) : Out :=
  whenIdle s <| .next (finish (epochResult (epochCheck dw)) s)

/-- A step of PROBE that reads a register: the bus read, and the position it leads to. -/
def probeRead (p : Params) (w : Reg) (pos : Word → ProbePos) (s : State) : State :=
  suspend (.probe (pos (readValue p w s))) (afterRead p w s)

/-- The first step of PROBE (R185) in phase UNINIT: region acquisition, then the mode-check read. -/
def probeStart (p : Params) (s : State) : State :=
  if p.regionOk then probeRead p .time .modeRead s else failProbe .regionUnavailable s

/-- A later step of PROBE (R185), from the position the operation stands at. -/
def probeResume (p : Params) (pos : ProbePos) (s : State) : State :=
  match pos with
  | .modeRead r0 => match modeCheck r0 with
    | some e => failProbe e s
    | none => probeRead p .time .liveRead s
  | .liveRead r1 =>
    if r1 = sentinel then suspend (.probe (.waited r1)) (emit .wait s) else probeRead p .date .dateRead s
  | .waited r1 => probeRead p .time (.confirmed r1) s
  | .confirmed r1 r2 => match livenessCheck r1 r2 with
    | some e => failProbe e s
    | none => probeRead p .date .dateRead s
  | .dateRead d => match epochCheck d with
    | some v => suspend (.probe .repaired) (afterWrite .date v s)
    | none => readyProbe s
  | .repaired => suspend (.probe .logged) (emit (.log .epochRepair) s)
  | .logged => readyProbe s

/-- One step of PROBE at given parameters (R185): it starts only in phase UNINIT. -/
def probeStep (p : Params) (s : State) : Out :=
  match s.progress with
  | .idle => if uninitialised s then .next (probeStart p s) else .refused .probeRepeated
  | .probe pos => .next (probeResume p pos s)
  | .readTime _ => .refused .operationInProgress
  | .setTime _ _ => .refused .operationInProgress

/-- PROBE (R185). -/
def execProbe (s : State) : Out :=
  probeStep Config.params s

end Sys2Proof.Machine
end

