-- ==== Sys2Proof/Machine/Dispatch.lean ====
section
/-!
DEFINITION. The meaning of each operation: one arm for each row of the operation code map (spec/30_encoding.md R81).
`exec i s` is one step of the operation `i`; an operation of several steps goes on from `s.progress` (R14, R35).
-/

namespace Sys2Proof.Machine

def exec (i : Instr) (s : State) : Host.Outcome State Fault Refusal :=
  match i with
  | .bin2bcd v => Sys2Proof.Machine.execBin2bcd v s
  | .bcd2bin b => Sys2Proof.Machine.execBcd2bin b s
  | .encodeTime t => Sys2Proof.Machine.execEncodeTime t s
  | .encodeDate t => Sys2Proof.Machine.execEncodeDate t s
  | .encode t => Sys2Proof.Machine.execEncode t s
  | .decodeTime tw => Sys2Proof.Machine.execDecodeTime tw s
  | .decodeDate dw => Sys2Proof.Machine.execDecodeDate dw s
  | .decode tw dw => Sys2Proof.Machine.execDecode tw dw s
  | .rd32 w => Sys2Proof.Machine.execRd32 w s
  | .wr32 w v => Sys2Proof.Machine.execWr32 w v s
  | .modeCheck tw => Sys2Proof.Machine.execModeCheck tw s
  | .livenessCheck r1 r2 => Sys2Proof.Machine.execLivenessCheck r1 r2 s
  | .epochCheck dw => Sys2Proof.Machine.execEpochCheck dw s
  | .probe => Sys2Proof.Machine.execProbe s
  | .readTime => Sys2Proof.Machine.execReadTime s
  | .setTime t => Sys2Proof.Machine.execSetTime t s

end Sys2Proof.Machine
end

