-- ==== Sys2Proof/WellFormed.lean ====
section
/-!
DEFINITION. When a request's operands are those its operation takes (spec/30_encoding.md R81, R83). An `Instr` has
nothing left to check: each constructor's operands already have the types of R83. What can be ill-formed is a
request, whose operand list may lack an operand, have one of another kind, or have one too many.
-/

namespace Sys2Proof

/-- The kind of an operand value. -/
def Operand.kind : Operand → OperandKind
  | .int _ => .int
  | .byte _ => .byte
  | .word _ => .word
  | .cal _ => .cal

/-- The operand list is exactly of the given kinds, in order (R81, R83). -/
def operandsFit : List OperandKind → List Operand → Bool
  | [], [] => true
  | k :: ks, a :: as => decide (a.kind = k) && operandsFit ks as
  | [], _ :: _ => false
  | _ :: _, [] => false

end Sys2Proof
end

