-- ==== Sys2Proof/Decode.lean ====
section
/-!
DEFINITION. The decoder and the encoder of operations (spec/30_encoding.md section 2): the operation code map of R81,
the register index of R82, the refusal of unassigned codes of R84, and the pseudo-instructions of R88. The decoder is
total on every request and rejects by name.
-/

namespace Sys2Proof

/-- Why a request spells no operation. -/
inductive DecodeError where
  /-- No row of R81 matches the code (R84). -/
  | illegalOperation (code : Byte)
  /-- The operands beside the code are not those of its row (R83). -/
  | badOperands (op : Mnemonic)
  deriving DecidableEq, Repr

/-- The operation code map of R81, row by row. -/
def opcodeTable : List OpcodeRow :=
  [ ⟨0x01, 0xFF, .bin2bcd, [.int]⟩,
    ⟨0x02, 0xFF, .bcd2bin, [.byte]⟩,
    ⟨0x10, 0xFF, .encodeTime, [.cal]⟩,
    ⟨0x11, 0xFF, .encodeDate, [.cal]⟩,
    ⟨0x12, 0xFF, .encode, [.cal]⟩,
    ⟨0x18, 0xFF, .decodeTime, [.word]⟩,
    ⟨0x19, 0xFF, .decodeDate, [.word]⟩,
    ⟨0x1A, 0xFF, .decode, [.word, .word]⟩ ] ++
  [ ⟨0x20, 0xFE, .rd32, []⟩,
    ⟨0x28, 0xFE, .wr32, [.word]⟩,
    ⟨0x30, 0xFF, .modeCheck, [.word]⟩,
    ⟨0x31, 0xFF, .livenessCheck, [.word, .word]⟩,
    ⟨0x32, 0xFF, .epochCheck, [.word]⟩,
    ⟨0x38, 0xFF, .probe, []⟩,
    ⟨0x40, 0xFF, .readTime, []⟩,
    ⟨0x41, 0xFF, .setTime, [.cal]⟩ ]

/-- The code has the row's bits under the row's mask. -/
def OpcodeRow.covers (row : OpcodeRow) (code : Byte) : Bool :=
  decide (code &&& row.mask = row.pattern)

/-- The row of R81 that a code matches, if any. -/
def lookupRow (code : Byte) : Option OpcodeRow :=
  opcodeTable.find? (fun row => row.covers code)

/-- The register whose index bit is `b` (R82). -/
def regOfBit (b : Bool) : Reg :=
  if b then .date else .time

/-- The index bit of a register (R82). -/
def regBit : Reg → Byte
  | .time => 0
  | .date => 1

/-- The register that an operation code names in its bit 0 (R82). -/
def regOfCode (code : Byte) : Reg :=
  regOfBit (code.getLsbD 0)

/-- The operation of a row from its code and operands, where the operands are those of the row (R81, R83). -/
def buildInstr (m : Mnemonic) (code : Byte) (args : List Operand) : Option Instr :=
  match m with
  | .bin2bcd => match args with
    | [.int v] => some (.bin2bcd v)
    | _ => none
  | .bcd2bin => match args with
    | [.byte b] => some (.bcd2bin b)
    | _ => none
  | .encodeTime => match args with
    | [.cal t] => some (.encodeTime t)
    | _ => none
  | .encodeDate => match args with
    | [.cal t] => some (.encodeDate t)
    | _ => none
  | .encode => match args with
    | [.cal t] => some (.encode t)
    | _ => none
  | .decodeTime => match args with
    | [.word tw] => some (.decodeTime tw)
    | _ => none
  | .decodeDate => match args with
    | [.word dw] => some (.decodeDate dw)
    | _ => none
  | .decode => match args with
    | [.word tw, .word dw] => some (.decode tw dw)
    | _ => none
  | .rd32 => match args with
    | [] => some (.rd32 (regOfCode code))
    | _ => none
  | .wr32 => match args with
    | [.word v] => some (.wr32 (regOfCode code) v)
    | _ => none
  | .modeCheck => match args with
    | [.word tw] => some (.modeCheck tw)
    | _ => none
  | .livenessCheck => match args with
    | [.word r1, .word r2] => some (.livenessCheck r1 r2)
    | _ => none
  | .epochCheck => match args with
    | [.word dw] => some (.epochCheck dw)
    | _ => none
  | .probe => match args with
    | [] => some .probe
    | _ => none
  | .readTime => match args with
    | [] => some .readTime
    | _ => none
  | .setTime => match args with
    | [.cal t] => some (.setTime t)
    | _ => none

/-- The decoder (R81, R84): the verdict on an unassigned code comes before every other (R223). -/
def decodeRequest (r : Request) : Except DecodeError Instr :=
  match lookupRow r.code with
  | none => .error (.illegalOperation r.code)
  | some row => match buildInstr row.mnemonic r.code r.args with
    | some i => .ok i
    | none => .error (.badOperands row.mnemonic)

/-- The encoder: the code of R81 with the operands beside it. -/
def encodeInstr : Instr → Request
  | .bin2bcd v => ⟨0x01, [.int v]⟩
  | .bcd2bin b => ⟨0x02, [.byte b]⟩
  | .encodeTime t => ⟨0x10, [.cal t]⟩
  | .encodeDate t => ⟨0x11, [.cal t]⟩
  | .encode t => ⟨0x12, [.cal t]⟩
  | .decodeTime tw => ⟨0x18, [.word tw]⟩
  | .decodeDate dw => ⟨0x19, [.word dw]⟩
  | .decode tw dw => ⟨0x1A, [.word tw, .word dw]⟩
  | .rd32 w => ⟨0x20 ||| regBit w, []⟩
  | .wr32 w v => ⟨0x28 ||| regBit w, [.word v]⟩
  | .modeCheck tw => ⟨0x30, [.word tw]⟩
  | .livenessCheck r1 r2 => ⟨0x31, [.word r1, .word r2]⟩
  | .epochCheck dw => ⟨0x32, [.word dw]⟩
  | .probe => ⟨0x38, []⟩
  | .readTime => ⟨0x40, []⟩
  | .setTime t => ⟨0x41, [.cal t]⟩

/-- The operation a pseudo-instruction stands for (R88). -/
def expandPseudo : Pseudo → Instr
  | .rdTime => .rd32 .time
  | .rdDate => .rd32 .date
  | .wrTime v => .wr32 .time v
  | .wrDate v => .wr32 .date v

/-- The operand of a kind whose value is zero throughout. -/
def zeroOperand : OperandKind → Operand
  | .int => .int 0
  | .byte => .byte 0
  | .word => .word 0
  | .cal => .cal ⟨0, 0, 0, 0, 0, 0, 0⟩

/-- The request whose code is `w` and whose operands are zeros of the kinds the code's row asks for. Every operation
code is exactly 8 bits (R86), so any other length spells no request. -/
def tableRequest (nbits w : Nat) : Option Request :=
  if nbits = 8 ∧ w < 256 then
    let code := BitVec.ofNat 8 w
    match lookupRow code with
    | some row => some ⟨code, row.kinds.map zeroOperand⟩
    | none => some ⟨code, []⟩
  else none

/-- What the decoder reads from an operation of the opcode table whose code bits are `w`, its operands zero. -/
def decodeTableWord (nbits w : Nat) : Option Instr :=
  match tableRequest nbits w with
  | none => none
  | some r => match decodeRequest r with
    | .ok i => some i
    | .error _ => none

end Sys2Proof
end

