-- ==== Sys2Proof/Machine/Fetch.lean ====
section
/-!
DEFINITION. How the machine comes to its next operation (spec/30_encoding.md R80, R85; spec/10_state.md R35). The block
fetches no instructions from memory (R65): the host's list of operations is the program. An operation in progress is
gone on with; otherwise the host issues the next operation of its list.
-/

namespace Sys2Proof.Machine

/-- The operation in progress, if any. -/
def currentInstr : Progress → Option Instr
  | .idle => none
  | .probe _ => some .probe
  | .readTime _ => some .readTime
  | .setTime t _ => some (.setTime t)

/-- The admitted subsets of R85. -/
def admitted (l : Level) (m : Mnemonic) : Bool :=
  match l with
  | .component => true
  | .host => match m with
    | .probe => true
    | .readTime => true
    | .setTime => true
    | .bin2bcd => false
    | .bcd2bin => false
    | .encodeTime => false
    | .encodeDate => false
    | .encode => false
    | .decodeTime => false
    | .decodeDate => false
    | .decode => false
    | .rd32 => false
    | .wr32 => false
    | .modeCheck => false
    | .livenessCheck => false
    | .epochCheck => false

/-- The refusal a decoder's verdict turns into. -/
def decodeRefusal : DecodeError → Refusal
  | .illegalOperation c => .illegalOperation c
  | .badOperands m => .badOperands m

/-- The host issues the first operation of its list (R16, R80): decoded (R84), then admitted or refused (R85). -/
def issue (r : Request) (rest : List Request) (s : State) : Except Refusal (Option (Instr × State)) :=
  match decodeRequest r with
  | .error e => .error (decodeRefusal e)
  | .ok i =>
    if admitted s.level i.mnemonic then .ok (some (i, { s with program := rest }))
    else .error (.notAdmitted i.mnemonic)

/-- The operation of the next step and the state it runs in; `none` where the host has no further operation and none
is in progress. -/
def fetch (s : State) : Except Refusal (Option (Instr × State)) :=
  match currentInstr s.progress with
  | some i => .ok (some (i, s))
  | none => match s.program with
    | [] => .ok none
    | r :: rest => issue r rest s

/-- Place a request where the next step issues it from. -/
def placeRequest (r : Request) (s : State) : State :=
  { s with program := r :: s.program, progress := .idle, resetLine := false }

end Sys2Proof.Machine
end

