-- ==== Sys2Proof/Machine/Step.lean ====
section
/-!
DEFINITION. One step of the machine. The RTC agent has its opportunity to move (spec/42_register_access.md R156), and
then the block takes one step (spec/00_scope.md R14): it is reset, or goes on with the operation in progress, or starts
the next operation of the host's list. Where the host has no further operation, only the RTC agent moves (R266).
-/

namespace Sys2Proof.Machine

/-- One step. -/
def step (s : State) : Host.Outcome State Fault Refusal :=
  let s₁ := rtcTick Config.params s
  if s.resetLine then .next (hostReset s₁)
  else match fetch s₁ with
    | .error e => .refused e
    | .ok none => .next s₁
    | .ok (some (i, s₂)) => exec i s₂

/-- `s` with the operation of code `w`, its operands zero, placed as the host's next operation, so that the next step
issues exactly it. -/
def State.withFetchWord (s : State) (nbits w : Nat) : State :=
  match tableRequest nbits w with
  | some r => placeRequest r s
  | none => s

end Sys2Proof.Machine
end

