-- ==== Sys2Proof/Machine/Asm.lean ====
section
/-!
DEFINITION. The assembler syntax of spec/30_encoding.md R87 and the pseudo-instructions of R88, as a reader from text to
operations: one operation on a line, the mnemonic in lower case, operands separated by commas, integers in decimal or
in hexadecimal after `0x`, and a comment from a semicolon on. It is notation only (decision D24): nothing in the
machine depends on it.
-/

namespace Sys2Proof.Machine

/-- A decimal digit. -/
def asmDecDigit (c : Char) : Option Nat :=
  if 48 ≤ c.toNat ∧ c.toNat ≤ 57 then some (c.toNat - 48) else none

/-- A hexadecimal digit, of either case. -/
def asmHexDigit (c : Char) : Option Nat :=
  if 48 ≤ c.toNat ∧ c.toNat ≤ 57 then some (c.toNat - 48)
  else if 97 ≤ c.toNat ∧ c.toNat ≤ 102 then some (c.toNat - 87)
  else if 65 ≤ c.toNat ∧ c.toNat ≤ 70 then some (c.toNat - 55)
  else none

/-- The value of a run of digits, the most significant first. -/
def asmFold (base : Nat) (digit : Char → Option Nat) : Nat → List Char → Option Nat
  | acc, [] => some acc
  | acc, c :: cs => match digit c with
    | some d => asmFold base digit (acc * base + d) cs
    | none => none

/-- A number in decimal, or in hexadecimal after `0x` (R87). -/
def asmNat (cs : List Char) : Option Nat :=
  match cs with
  | [] => none
  | '0' :: 'x' :: [] => none
  | '0' :: 'x' :: ds => asmFold 16 asmHexDigit 0 ds
  | ds => asmFold 10 asmDecDigit 0 ds

/-- An integer, with a minus sign if it is negative (R26, R83: `v` and the fields of a record are integers). -/
def asmInt (cs : List Char) : Option Int :=
  match cs with
  | '-' :: ds => (asmNat ds).map (fun n => -(n : Int))
  | ds => (asmNat ds).map (fun n => (n : Int))

/-- A blank between the parts of a line. -/
def asmBlank (c : Char) : Bool :=
  decide (c = ' ') || decide (c = '\t') || decide (c = '\r')

/-- The text without the blanks at its two ends. -/
def asmTrim (cs : List Char) : List Char :=
  ((cs.dropWhile asmBlank).reverse.dropWhile asmBlank).reverse

/-- The parts of a text between the separators. -/
def asmSplit (sep : Char) : List Char → List (List Char)
  | [] => [[]]
  | c :: cs => match asmSplit sep cs with
    | [] => [[c]]
    | part :: parts => if c = sep then [] :: part :: parts else (c :: part) :: parts

/-- `key=value` with the given key, the value an integer. -/
def asmKeyed (key : String) (cs : List Char) : Option Int :=
  match asmSplit '=' cs with
  | [k, v] => if asmTrim k = key.toList then asmInt (asmTrim v) else none
  | _ => none

/-- The seven fields of a CalendarTime literal, in the order of R87. -/
def asmFields (parts : List (List Char)) : Option CalendarTime :=
  match parts with
  | [a, b, c, d, e, f, g] =>
    match asmKeyed "sec" a, asmKeyed "min" b, asmKeyed "hour" c, asmKeyed "wday" d, asmKeyed "day" e,
      asmKeyed "month" f, asmKeyed "year" g with
    | some s, some m, some h, some w, some md, some mo, some y => some ⟨s, m, h, w, md, mo, y⟩
    | _, _, _, _, _, _, _ => none
  | _ => none

/-- A CalendarTime literal (R87): the fields between an opening and a closing brace, characters 123 and 125. -/
def asmCal (cs : List Char) : Option CalendarTime :=
  match asmTrim cs with
  | [] => none
  | c :: body =>
    if c = Char.ofNat 123 then
      match body.reverse with
      | [] => none
      | d :: rest => if d = Char.ofNat 125 then asmFields (asmSplit ',' rest.reverse) else none
    else none

/-- One operand of a kind; a value outside its type cannot be written down (R83). -/
def asmOperand (k : OperandKind) (cs : List Char) : Option Operand :=
  match k with
  | .int => (asmInt (asmTrim cs)).map .int
  | .byte => match asmNat (asmTrim cs) with
    | some n => if n < 2 ^ 8 then some (.byte (BitVec.ofNat 8 n)) else none
    | none => none
  | .word => match asmNat (asmTrim cs) with
    | some n => if n < 2 ^ 32 then some (.word (BitVec.ofNat 32 n)) else none
    | none => none
  | .cal => (asmCal cs).map .cal

/-- Operands of the given kinds, one from each part. -/
def asmOperands : List OperandKind → List (List Char) → Option (List Operand)
  | [], [] => some []
  | k :: ks, part :: parts => match asmOperand k part, asmOperands ks parts with
    | some a, some as => some (a :: as)
    | _, _ => none
  | [], _ :: _ => none
  | _ :: _, [] => none

/-- The operand parts of a text: none where it is blank, the whole text where it is a CalendarTime literal (the only
operand with commas in it, and never beside another), and the parts between commas otherwise. -/
def asmParts (kinds : List OperandKind) (cs : List Char) : List (List Char) :=
  if asmTrim cs = [] then []
  else if kinds = [.cal] then [cs]
  else asmSplit ',' cs

/-- The register index of RD32 and WR32 (R82). -/
def asmReg (cs : List Char) : Option Byte :=
  match asmNat (asmTrim cs) with
  | some 0 => some 0
  | some 1 => some 1
  | _ => none

/-- The spelling of each mnemonic in lower case (R87). -/
def asmNames : List (String × Mnemonic) :=
  [ ("bin2bcd", .bin2bcd), ("bcd2bin", .bcd2bin), ("encode_time", .encodeTime), ("encode_date", .encodeDate),
    ("encode", .encode), ("decode_time", .decodeTime), ("decode_date", .decodeDate), ("decode", .decode) ] ++
  [ ("rd32", .rd32), ("wr32", .wr32), ("mode_check", .modeCheck), ("liveness_check", .livenessCheck),
    ("epoch_check", .epochCheck), ("probe", .probe), ("read_time", .readTime), ("set_time", .setTime) ]

/-- The operation of a mnemonic with its operands as text: the operands of its row of R81, after the register index
where the row's mask leaves bit 0 to it (R82). -/
def asmOperation (m : Mnemonic) (cs : List Char) : Option Instr :=
  match opcodeTable.find? (fun row => decide (row.mnemonic = m)) with
  | none => none
  | some row =>
    if row.mask = 0xFF then
      match asmOperands row.kinds (asmParts row.kinds cs) with
      | some args => buildInstr m row.pattern args
      | none => none
    else
      match asmSplit ',' cs with
      | [] => none
      | w :: parts => match asmReg w, asmOperands row.kinds parts with
        | some b, some args => buildInstr m (row.pattern ||| b) args
        | _, _ => none

/-- A pseudo-instruction by its spelling (R88). -/
def asmPseudo (name cs : List Char) : Option Pseudo :=
  if name = "rd.time".toList then (if asmTrim cs = [] then some .rdTime else none)
  else if name = "rd.date".toList then (if asmTrim cs = [] then some .rdDate else none)
  else match asmOperand .word cs with
    | some (.word v) =>
      if name = "wr.time".toList then some (.wrTime v)
      else if name = "wr.date".toList then some (.wrDate v)
      else none
    | _ => none

/-- One line of R87: `some none` where it holds no operation, `none` where it is no line of the syntax. -/
def asmLine (line : List Char) : Option (Option Instr) :=
  let text := asmTrim (line.takeWhile (fun c => decide (c ≠ ';')))
  if text = [] then some none
  else
    let name := text.takeWhile (fun c => !asmBlank c)
    let rest := text.dropWhile (fun c => !asmBlank c)
    match asmNames.find? (fun e => decide (e.1.toList = name)) with
    | some e => (asmOperation e.2 rest).map some
    | none => (asmPseudo name rest).map (fun q => some (expandPseudo q))

/-- The operations of the lines of a program, or `none` where some line is none of the syntax. -/
def asmLines : List (List Char) → Option (List Instr)
  | [] => some []
  | line :: lines => match asmLine line, asmLines lines with
    | some none, some is => some is
    | some (some i), some is => some (i :: is)
    | _, _ => none

/-- A program as text (R87), one operation a line. -/
def assemble (text : String) : Option (List Instr) :=
  asmLines (asmSplit '\n' text.toList)

end Sys2Proof.Machine
end

