-- ==== Sys2Proof/Safety.lean ====
section
/-!
DEFINITION. What claims about the machine are stated in: the invariant of every step, the end of a run (spec/70 R266),
and a whole operation made of its steps (R14, R265). The premise that narrows the RTC agent (R156) is `RtcWithin`, beside
`rtcTick` in Machine/Ops.lean.
-/

namespace Sys2Proof.Machine

/-- A register holds contract bits only: its unused bits are not stored (R152, R156). -/
abbrev RegsClean (s : State) : Prop :=
  s.time &&& unusedMask .time = 0 ∧ s.date &&& unusedMask .date = 0

/-- What holds at a position inside PROBE: it was reached from UNINIT, and the wait comes only after a first liveness
read that returned the sentinel (R185). -/
abbrev ProbePosOk (s : State) : ProbePos → Prop
  | .modeRead _ => s.phase = .uninit
  | .liveRead _ => s.phase = .uninit
  | .waited r1 => s.phase = .uninit ∧ r1 = sentinel
  | .confirmed r1 _ => s.phase = .uninit ∧ r1 = sentinel
  | .dateRead _ => s.phase = .uninit
  | .repaired => s.phase = .uninit
  | .logged => s.phase = .uninit

/-- What holds at a position inside SET_TIME: the phase is READY, the record is in contract, and the word still to be
written is the record's DATE word (R205). -/
abbrev SetPosOk (s : State) (t : CalendarTime) : SetPos → Prop
  | .timeWritten dw => s.phase = .ready ∧ InContract t ∧ dw = dateWord t
  | .dateWritten => s.phase = .ready ∧ InContract t

/-- What holds of the operation in progress. -/
abbrev ProgressOk (s : State) : Prop :=
  match s.progress with
  | .idle => True
  | .probe pos => ProbePosOk s pos
  | .readTime _ => s.phase = .ready
  | .setTime t pos => SetPosOk s t pos

/-- The invariant of the machine: clean registers, and an operation in progress that its phase and operands allow. -/
abbrev Inv (s : State) : Prop :=
  RegsClean s ∧ ProgressOk s

/-- The end of a run (R266): the host issues no further operation and none is in progress. -/
abbrev EndOfRun (s : State) : Prop :=
  s.progress = .idle ∧ s.program = [] ∧ s.resetLine = false

/-- A whole operation: at most `k` of its steps `f`, with `between` at each step boundary inside it, until no
operation is in progress. -/
def runOp (f : State → Out) (between : State → State) : Nat → State → Out
  | 0, s => .next s
  | k + 1, s =>
    match f s with
    | .next t => if t.progress = .idle then .next t else runOp f between k (between t)
    | .fault e => .fault e
    | .refused e => .refused e

end Sys2Proof.Machine
end

