-- ==== Sys2Proof/Certificates/Slice0/Obligations.lean ====
section
/-!
DEFINITION. The statements for the provers: what the numbered rules of spec/ say the operations and the machine do.
Statements with `p : Params` hold for every value of the parameters and of the free draws, whatever the opaque
constants of Config are.
-/

open Sys2Proof Sys2Proof.Machine

/-! ### Encoding (spec/30_encoding.md) -/

/-- R81, R82, R83: decoding the request that encodes an operation gives the operation back, with every operand at
every value; and a request that decodes to an operation is the one that encodes it, so no bit of it is dropped. -/
def Obligations.DecodeEncodeAgree : Prop :=
  (∀ i : Instr, decodeRequest (encodeInstr i) = .ok i) ∧
  ∀ (r : Request) (i : Instr), decodeRequest r = .ok i → encodeInstr i = r

/-- R84: a code that is none of the eighteen assigned ones spells no operation: the decoder's verdict is
IllegalOperation whatever stands beside it, and the machine refuses it; an assigned code never gets that verdict. -/
def Obligations.UnassignedCodesRefused : Prop :=
  ∀ (c : Byte) (args : List Operand),
    (c ∉ ([0x01, 0x02, 0x10, 0x11, 0x12, 0x18, 0x19, 0x1A, 0x20, 0x21, 0x28, 0x29, 0x30, 0x31, 0x32, 0x38, 0x40,
        0x41] : List Byte) →
      decodeRequest ⟨c, args⟩ = .error (.illegalOperation c) ∧
      ∀ (s : State) (rest : List Request), s.progress = .idle → s.resetLine = false →
        s.program = ⟨c, args⟩ :: rest → step s = .refused (.illegalOperation c)) ∧
    (c ∈ ([0x01, 0x02, 0x10, 0x11, 0x12, 0x18, 0x19, 0x1A, 0x20, 0x21, 0x28, 0x29, 0x30, 0x31, 0x32, 0x38, 0x40,
        0x41] : List Byte) →
      ∀ d, decodeRequest ⟨c, args⟩ ≠ .error (.illegalOperation d))

/-- R81: no code is matched by two rows of the operation code map. -/
def Obligations.OpcodeRowsDisjoint : Prop :=
  opcodeTable.Pairwise fun a b => ∀ c : Byte, ¬ (a.covers c = true ∧ b.covers c = true)

/-- R81, R82: some codes written out from the operation code map decode to the operations they stand for. -/
def Obligations.CodesDecodeAsWritten : Prop :=
  decodeRequest ⟨0b00000001, [.int 59]⟩ = .ok (.bin2bcd 59) ∧
  decodeRequest ⟨0b00011010, [.word 1, .word 2]⟩ = .ok (.decode 1 2) ∧
  decodeRequest ⟨0b00100001, []⟩ = .ok (.rd32 .date) ∧
  decodeRequest ⟨0b00101000, [.word 7]⟩ = .ok (.wr32 .time 7) ∧
  decodeRequest ⟨0b00110001, [.word 1, .word 2]⟩ = .ok (.livenessCheck 1 2) ∧
  decodeRequest ⟨0b00111000, []⟩ = .ok .probe ∧
  decodeRequest ⟨0b01000000, []⟩ = .ok .readTime

/-- R88: the four pseudo-instructions are RD32 and WR32 of TIME and DATE, with the codes of the table. -/
def Obligations.PseudoInstructionsExpand : Prop :=
  (expandPseudo .rdTime = .rd32 .time ∧ encodeInstr (expandPseudo .rdTime) = ⟨0x20, []⟩) ∧
  (expandPseudo .rdDate = .rd32 .date ∧ encodeInstr (expandPseudo .rdDate) = ⟨0x21, []⟩) ∧
  ∀ v, (expandPseudo (.wrTime v) = .wr32 .time v ∧ encodeInstr (expandPseudo (.wrTime v)) = ⟨0x28, [.word v]⟩) ∧
    (expandPseudo (.wrDate v) = .wr32 .date v ∧ encodeInstr (expandPseudo (.wrDate v)) = ⟨0x29, [.word v]⟩)

/-- R73: a field is extracted by shifting right and masking to its width, and placed by shifting the byte left. -/
def Obligations.FieldsShiftAndMask : Prop :=
  (∀ (o n : Nat) (w : Word), n ≤ 8 →
    (field o n w).setWidth 32 = (w >>> o) &&& ((1#32 <<< n) - 1#32)) ∧
  ∀ (o : Nat) (b : Byte), o ≤ 24 → (place o b).toNat = b.toNat * 2 ^ o

/-! ### The step -/

/-- R14, R80, R85: where nothing is in progress and the head of the host's list decodes to an operation that the
admitted subset holds, one step is one step of that operation, after the RTC agent's opportunity to move and with the
operation taken from the list. How a step fetches, and when the agent moves, is the model's choice (log 5, log 9). -/
def Obligations.StepRunsIssuedOperation : Prop :=
  ∀ (s : State) (r : Request) (rest : List Request) (i : Instr),
    s.resetLine = false → s.progress = .idle → s.program = r :: rest → decodeRequest r = .ok i →
    (s.level = .component ∨ i.mnemonic = .probe ∨ i.mnemonic = .readTime ∨ i.mnemonic = .setTime) →
    step s = exec i { rtcTick Config.params s with program := rest }

/-- R35, R62: an operation in progress is gone on with, after the RTC agent's opportunity to move; the host's list is
not looked at. The position in State and the agent's opportunity are the model's (log 1, log 5). -/
def Obligations.StepContinuesOperation : Prop :=
  ∀ s : State, s.resetLine = false →
    (∀ pos, s.progress = .probe pos → step s = exec .probe (rtcTick Config.params s)) ∧
    (∀ pos, s.progress = .readTime pos → step s = exec .readTime (rtcTick Config.params s)) ∧
    (∀ t pos, s.progress = .setTime t pos → step s = exec (.setTime t) (rtcTick Config.params s))

/-- R85: at host level every operation but PROBE, READ_TIME and SET_TIME is refused, raw RD32 and WR32 among them. The
level as a field of State is the model's choice (log 7). -/
def Obligations.HostLevelRefusesComponentOperations : Prop :=
  ∀ (s : State) (i : Instr) (rest : List Request),
    s.resetLine = false → s.progress = .idle → s.level = .host → s.program = encodeInstr i :: rest →
    i.mnemonic ≠ .probe → i.mnemonic ≠ .readTime → i.mnemonic ≠ .setTime →
    step s = .refused (.notAdmitted i.mnemonic)

/-- R266: at the end of a run only the counter goes on: a step changes TIME and DATE and nothing else that the spec
names, and the run stays at its end. The counter of the RTC agent's opportunities is the model's own (log 5). That the
machine goes on stepping there is the model's choice (log 11). -/
def Obligations.EndOfRunOnlyCounterMoves : Prop :=
  ∀ s : State, EndOfRun s → ∃ t, step s = .next t ∧ EndOfRun t ∧
    t = { s with time := t.time, date := t.date, moves := s.moves + 1 }

/-- R156: an RTC step replaces the pair by the contract bits of any pair, and changes nothing else; every pair may
follow every pair. That one opportunity is numbered by the counter `moves` is the model's choice (log 5). -/
def Obligations.RtcStepAnyPair : Prop :=
  (∀ (p : Params) (s : State), rtcTick p s =
    { s with
      time := (p.rtcMove s.moves (s.time, s.date)).1 &&& 0x077F7F7F
      date := (p.rtcMove s.moves (s.time, s.date)).2 &&& 0x00FF3F3F
      moves := s.moves + 1 }) ∧
  ∀ (s : State) (t d : Word), ∃ p : Params,
    (rtcTick p s).time = t &&& 0x077F7F7F ∧ (rtcTick p s).date = d &&& 0x00FF3F3F

/-- R250: reset sets the phase to UNINIT and empties the trace; TIME and DATE stay what they were, or what the counter
has made of them by then. The reset line is the model's choice (log 8). -/
def Obligations.ResetKeepsTimeAndDate : Prop :=
  (∀ s : State, (hostReset s).phase = .uninit ∧ (hostReset s).trace = [] ∧ (hostReset s).time = s.time ∧
    (hostReset s).date = s.date) ∧
  ∀ s : State, s.resetLine = true → ∃ t, step s = .next t ∧ t.phase = .uninit ∧ t.trace = [] ∧
    t.time = (rtcTick Config.params s).time ∧ t.date = (rtcTick Config.params s).date

/-- R36: after reset the phase is UNINIT and the trace is empty; TIME and DATE are a free draw's contract bits. The
opaque constant that stands for the draw is the model's choice (log 3). -/
def Obligations.StateAfterReset : Prop :=
  State.reset.phase = .uninit ∧ State.reset.trace = [] ∧ State.reset.time = Config.powerOn.1 &&& 0x077F7F7F ∧
    State.reset.date = Config.powerOn.2 &&& 0x00FF3F3F

/-- The invariant `Inv` of the machine holds right after reset. -/
def Obligations.ResetMeetsInvariant : Prop :=
  Inv State.reset

/-- Every step keeps the invariant, from every state that meets it: TIME and DATE hold contract bits only (R152,
R156), PROBE is in progress only in phase UNINIT, and READ_TIME and SET_TIME only in phase READY (R200), with the DATE
word that a SET_TIME has still to write the one its record encodes to (R205). -/
def Obligations.StepKeepsInvariant : Prop :=
  ∀ s t : State, Inv s → step s = .next t → Inv t

/-! ### BCD field conversions (spec/40_bcd_codec.md) -/

/-- R100: BIN2BCD on 0..99 ends with the byte `((v/10)<<4) | (v%10)` and writes nothing but the trace; on any other
value it faults OutOfContract. That the answer is a Result event is the model's reading (log 13), and which field the
fault names its choice (log 17). -/
def Obligations.Bin2bcdGivesBcdByte : Prop :=
  ∀ (v : Int) (s : State), s.progress = .idle →
    decodeRequest ⟨0x01, [.int v]⟩ = .ok (.bin2bcd v) ∧
    (0 ≤ v ∧ v ≤ 99 → exec (.bin2bcd v) s = .next { s with
      trace := s.trace ++ [.result (.byte (BitVec.ofNat 8 (((v.toNat / 10) <<< 4) ||| (v.toNat % 10))))] }) ∧
    (v < 0 ∨ 99 < v → exec (.bin2bcd v) s = .fault (.outOfContract .bin2bcd .value))

/-- R101: on 0..99 the result is valid BCD, at most 0x99, and strictly increasing, so no two values share one. -/
def Obligations.Bin2bcdValidInjectiveMonotone : Prop :=
  (∀ v : Nat, v ≤ 99 → (bcdByte v >>> 4).toNat = v / 10 ∧ v / 10 ≤ 9 ∧ (bcdByte v &&& 0x0F).toNat = v % 10 ∧
    validBcd (bcdByte v) = true ∧ (bcdByte v).toNat ≤ 0x99) ∧
  (∀ v w : Nat, v ≤ 99 → w ≤ 99 → bcdByte v = bcdByte w → v = w) ∧
  ∀ v w : Nat, v ≤ 99 → w ≤ 99 → v < w → (bcdByte v).toNat < (bcdByte w).toNat

/-- R105: BCD2BIN ends, for every byte, with the integer `(b>>4)*10 + (b&0xF)`, in 0..165, and writes nothing but the
trace. That the answer is a Result event is the model's reading (log 13). -/
def Obligations.Bcd2binComputesFormula : Prop :=
  ∀ (b : Byte) (s : State), s.progress = .idle →
    decodeRequest ⟨0x02, [.byte b]⟩ = .ok (.bcd2bin b) ∧
    exec (.bcd2bin b) s = .next { s with
      trace := s.trace ++ [.result (.integer ((b.toNat / 16 * 10 + b.toNat % 16 : Nat) : Int))] } ∧
    b.toNat / 16 * 10 + b.toNat % 16 ≤ 165

/-- R106: on valid BCD the two conversions are inverse; on all bytes BCD2BIN is not injective and gives 0 to
165; masked fields of 7, 6 and 3 bits give at most 85, 45 and 7, and a 3-bit field gives itself. -/
def Obligations.BcdConversionsInverse : Prop :=
  (∀ b : Byte, validBcd b = true → bcdByte (bcd2bin b) = b) ∧
  (∀ v : Nat, v ≤ 99 → bcd2bin (bcdByte v) = v) ∧
  (bcd2bin 0x0A = 10 ∧ bcd2bin 0x10 = 10) ∧ (bcd2bin 0x00 = 0 ∧ bcd2bin 0xFF = 165 ∧ ∀ b : Byte, bcd2bin b ≤ 165) ∧
  (∀ b : Byte, b.toNat ≤ 0x7F → bcd2bin b ≤ 85) ∧ (∀ b : Byte, b.toNat ≤ 0x3F → bcd2bin b ≤ 45) ∧
  ∀ b : Byte, b.toNat ≤ 0x07 → bcd2bin b = b.toNat ∧ bcd2bin b ≤ 7

/-- R107: on a 3-bit weekday field BCD2BIN is the identity, and on 0..6 BIN2BCD is. -/
def Obligations.WeekdayBinaryEqualsBcd : Prop :=
  (∀ tw : Word, bcd2bin (field 24 3 tw) = (field 24 3 tw).toNat) ∧
  ∀ v : Nat, v ≤ 6 → (bcdByte v).toNat = v

/-! ### Register packing (spec/41_register_packing.md) -/

/-- R120: ENCODE_TIME of a record whose time fields are in contract ends with the four BCD bytes at offsets 0, 8, 16 and
24, and writes nothing but the trace; where a time field is out of range it faults OutOfContract. That the answer is a
Result event is the model's reading (log 13), and which field the fault names its choice (log 17). -/
def Obligations.EncodeTimePacksFields : Prop :=
  ∀ (t : CalendarTime) (s : State), s.progress = .idle →
    decodeRequest ⟨0x10, [.cal t]⟩ = .ok (.encodeTime t) ∧
    (InContractTime t → exec (.encodeTime t) s = .next { s with
      trace := s.trace ++ [.result (.word ((bcdByte t.second.toNat).setWidth 32
        ||| ((bcdByte t.minute.toNat).setWidth 32 <<< 8) ||| ((bcdByte t.hour.toNat).setWidth 32 <<< 16)
        ||| ((bcdByte t.weekday.toNat).setWidth 32 <<< 24)))] }) ∧
    (¬ InContractTime t → ∃ f, exec (.encodeTime t) s = .fault (.outOfContract .encodeTime f))

/-- R122: ENCODE_DATE of a record whose date fields are in contract ends with the BCD bytes of the day, of the month
plus one and of the year modulo 100 at offsets 0, 8 and 16, and writes nothing but the trace; where a date field is out
of range it faults OutOfContract. That the answer is a Result event is the model's reading (log 13), and which field the
fault names its choice (log 17). -/
def Obligations.EncodeDatePacksFields : Prop :=
  ∀ (t : CalendarTime) (s : State), s.progress = .idle →
    decodeRequest ⟨0x11, [.cal t]⟩ = .ok (.encodeDate t) ∧
    (InContractDate t → exec (.encodeDate t) s = .next { s with
      trace := s.trace ++ [.result (.word ((bcdByte t.mday.toNat).setWidth 32
        ||| ((bcdByte (t.month + 1).toNat).setWidth 32 <<< 8)
        ||| ((bcdByte (t.year % 100).toNat).setWidth 32 <<< 16)))] }) ∧
    (¬ InContractDate t → ∃ f, exec (.encodeDate t) s = .fault (.outOfContract .encodeDate f))

/-- R124: ENCODE of an in-contract record ends with the pair of words that ENCODE_TIME and ENCODE_DATE end with; where
any of the seven fields is out of range it faults OutOfContract and produces no word. That the answer is a Result event
is the model's reading (log 13), and which field the fault names its choice (log 17). -/
def Obligations.EncodeGivesBothWords : Prop :=
  ∀ (t : CalendarTime) (s : State), s.progress = .idle →
    decodeRequest ⟨0x12, [.cal t]⟩ = .ok (.encode t) ∧
    (InContract t → ∃ tw dw,
      exec (.encode t) s = .next { s with trace := s.trace ++ [.result (.words tw dw)] } ∧
      exec (.encodeTime t) s = .next { s with trace := s.trace ++ [.result (.word tw)] } ∧
      exec (.encodeDate t) s = .next { s with trace := s.trace ++ [.result (.word dw)] }) ∧
    (¬ InContract t → ∃ f, exec (.encode t) s = .fault (.outOfContract .encode f))

/-- R223: the field an OutOfContract fault of ENCODE names is the first one out of range in the order second, minute,
hour, weekday, mday, month, year. That the mark names a field is R220; that it is this one, the model's choice that R223
allows (log 17). -/
def Obligations.FaultNamesFirstBadField : Prop :=
  ∀ (t : CalendarTime) (s : State), s.progress = .idle → ¬ InContract t →
    exec (.encode t) s = .fault (.outOfContract .encode
      (if t.second < 0 ∨ 59 < t.second then .second
       else if t.minute < 0 ∨ 59 < t.minute then .minute
       else if t.hour < 0 ∨ 23 < t.hour then .hour
       else if t.weekday < 0 ∨ 6 < t.weekday then .weekday
       else if t.mday < 1 ∨ 31 < t.mday then .mday
       else if t.month < 0 ∨ 11 < t.month then .month
       else .year))

/-- R121, R123: the words of an in-contract record have every unused bit 0, bit 22 of the TIME word is 0, each field
holds valid BCD, and the DATE word depends on the year only through its value modulo 100. -/
def Obligations.EncodedWordsClean : Prop :=
  (∀ t : CalendarTime, InContractTime t → timeWord t &&& 0xF8808080 = 0 ∧ (timeWord t).getLsbD 22 = false ∧
    validBcd (field 0 7 (timeWord t)) = true ∧ validBcd (field 8 7 (timeWord t)) = true ∧
    validBcd (field 16 6 (timeWord t)) = true ∧ validBcd (field 24 3 (timeWord t)) = true) ∧
  (∀ t : CalendarTime, InContractDate t → dateWord t &&& 0xFF00C0C0 = 0 ∧
    validBcd (field 0 6 (dateWord t)) = true ∧ validBcd (field 8 6 (dateWord t)) = true ∧
    validBcd (field 16 8 (dateWord t)) = true) ∧
  ∀ (t : CalendarTime) (y : Int), InContractDate t → 0 ≤ y → y % 100 = t.year % 100 →
    dateWord { t with year := y } = dateWord t

/-- R127: DECODE_TIME ends, for every word, with BCD2BIN of bits 6:0, 14:8, 21:16 and 26:24, and writes nothing but the
trace. That the answer is a Result event is the model's reading (log 13). -/
def Obligations.DecodeTimeUnpacksFields : Prop :=
  ∀ (tw : Word) (s : State), s.progress = .idle →
    decodeRequest ⟨0x18, [.word tw]⟩ = .ok (.decodeTime tw) ∧
    exec (.decodeTime tw) s = .next { s with trace := s.trace ++ [.result (.timeFields
      (bcd2bin ((tw.extractLsb' 0 7).setWidth 8)) (bcd2bin ((tw.extractLsb' 8 7).setWidth 8))
      (bcd2bin ((tw.extractLsb' 16 6).setWidth 8)) (bcd2bin ((tw.extractLsb' 24 3).setWidth 8)))] }

/-- R129: DECODE_DATE ends, for every word, with BCD2BIN of bits 5:0, of bits 13:8 less 1, and of bits 23:16 plus 100,
and writes nothing but the trace. That the answer is a Result event is the model's reading (log 13). -/
def Obligations.DecodeDateUnpacksFields : Prop :=
  ∀ (dw : Word) (s : State), s.progress = .idle →
    decodeRequest ⟨0x19, [.word dw]⟩ = .ok (.decodeDate dw) ∧
    exec (.decodeDate dw) s = .next { s with trace := s.trace ++ [.result (.dateFields
      (bcd2bin ((dw.extractLsb' 0 6).setWidth 8)) ((bcd2bin ((dw.extractLsb' 8 6).setWidth 8) : Int) - 1)
      ((bcd2bin ((dw.extractLsb' 16 8).setWidth 8) : Int) + 100))] }

/-- R131: DECODE ends with the record that the two words decode to where the plausibility check accepts it, and with
ImplausibleDate where it does not, and writes nothing but the trace. That the answer is a Result event is the model's
reading (log 13). -/
def Obligations.DecodeAsksPlausibility : Prop :=
  ∀ (tw dw : Word) (s : State), s.progress = .idle →
    decodeRequest ⟨0x1A, [.word tw, .word dw]⟩ = .ok (.decode tw dw) ∧
    ∃ t : CalendarTime,
      exec (.decodeTime tw) s = .next { s with
        trace := s.trace ++ [.result (.timeFields t.second t.minute t.hour t.weekday)] } ∧
      exec (.decodeDate dw) s = .next { s with trace := s.trace ++ [.result (.dateFields t.mday t.month t.year)] } ∧
      exec (.decode tw dw) s = .next { s with
        trace := s.trace ++ [.result (if Config.isValid t then .calendar t else .err .implausibleDate)] }

/-- R134: ENCODE of an in-contract record followed by DECODE of its two words decodes the record with the year folded
into 100..199; for a year in that range that the plausibility check accepts, DECODE answers the record itself. DECODE is
stated at every plausibility check; the machine's is `Config.params`. That the answer is a Result event is the model's
reading (log 13). -/
def Obligations.CalendarRoundTrip : Prop :=
  ∀ (t : CalendarTime) (s : State), s.progress = .idle → InContract t → ∃ tw dw,
    exec (.encode t) s = .next { s with trace := s.trace ++ [.result (.words tw dw)] } ∧
    exec (.decode tw dw) s = decodeStep Config.params tw dw s ∧
    ∀ p : Params,
      decodeStep p tw dw s = .next { s with trace := s.trace ++ [.result (
        if p.isValid { t with year := t.year % 100 + 100 } then .calendar { t with year := t.year % 100 + 100 }
        else .err .implausibleDate)] } ∧
      (100 ≤ t.year → t.year ≤ 199 → p.isValid t = true →
        decodeStep p tw dw s = .next { s with trace := s.trace ++ [.result (.calendar t)] })

/-- R135: a TIME word with its unused bits and bit 22 zero and every field valid BCD in its range, and a DATE word
likewise, is what its decoded record encodes to. Read as 10_state.md R22 and R23 read the ranges: each field valid BCD.
The reading is the model's (log 20). -/
def Obligations.WordRoundTrip : Prop :=
  (∀ tw dw : Word, tw &&& 0xF8C08080 = 0 → validBcd (field 0 7 tw) = true → validBcd (field 8 7 tw) = true →
    validBcd (field 16 6 tw) = true → bcd2bin (field 0 7 tw) ≤ 59 → bcd2bin (field 8 7 tw) ≤ 59 →
    bcd2bin (field 16 6 tw) ≤ 23 → bcd2bin (field 24 3 tw) ≤ 6 →
    InContractTime (decodedTime tw dw) ∧ timeWord (decodedTime tw dw) = tw) ∧
  ∀ tw dw : Word, dw &&& 0xFF00C0C0 = 0 → validBcd (field 0 6 dw) = true → validBcd (field 8 6 dw) = true →
    validBcd (field 16 8 dw) = true → 1 ≤ bcd2bin (field 0 6 dw) → bcd2bin (field 0 6 dw) ≤ 31 →
    1 ≤ bcd2bin (field 8 6 dw) → bcd2bin (field 8 6 dw) ≤ 12 →
    InContractDate (decodedTime tw dw) ∧ dateWord (decodedTime tw dw) = dw

/-- R136: the bits of a field are decided by one CalendarTime field alone, and a decoded field by its own bits
alone. -/
def Obligations.FieldsIndependent : Prop :=
  (∀ t u : CalendarTime, InContract t → InContract u →
    (t.second = u.second → timeWord t &&& secMask = timeWord u &&& secMask) ∧
    (t.minute = u.minute → timeWord t &&& minMask = timeWord u &&& minMask) ∧
    (t.hour = u.hour → timeWord t &&& hourMask = timeWord u &&& hourMask) ∧
    (t.weekday = u.weekday → timeWord t &&& wdayMask = timeWord u &&& wdayMask) ∧
    (t.mday = u.mday → dateWord t &&& dayMask = dateWord u &&& dayMask) ∧
    (t.month = u.month → dateWord t &&& monMask = dateWord u &&& monMask) ∧
    (t.year = u.year → dateWord t &&& yearMask = dateWord u &&& yearMask)) ∧
  ∀ v w : Word,
    (v &&& secMask = w &&& secMask → decSecond v = decSecond w) ∧
    (v &&& minMask = w &&& minMask → decMinute v = decMinute w) ∧
    (v &&& hourMask = w &&& hourMask → decHour v = decHour w) ∧
    (v &&& wdayMask = w &&& wdayMask → decWeekday v = decWeekday w) ∧
    (v &&& dayMask = w &&& dayMask → decMday v = decMday w) ∧
    (v &&& monMask = w &&& monMask → decMonth v = decMonth w) ∧
    (v &&& yearMask = w &&& yearMask → decYear v = decYear w)

/-- R76 (a), (b), R128: whatever stands in the unused bits and in the 12h-mode flag, the decoded record is the same. -/
def Obligations.DecodeIgnoresUnusedBits : Prop :=
  ∀ tw tw' dw dw' : Word, tw &&& 0x073F7F7F = tw' &&& 0x073F7F7F → dw &&& 0x00FF3F3F = dw' &&& 0x00FF3F3F →
    decodedTime tw dw = decodedTime tw' dw'

/-! ### Register access (spec/42_register_access.md, spec/20_memory.md) -/

/-- R150: RD32 appends one Read event, whose value has the register's contract bits and a free draw in the unused bits;
the register is unchanged. The number of draws taken is the model's own (log 4). That no Result event follows is its
reading (log 12). -/
def Obligations.Rd32ReadsLiveRegister : Prop :=
  decodeRequest ⟨0x20, []⟩ = .ok (.rd32 .time) ∧ decodeRequest ⟨0x21, []⟩ = .ok (.rd32 .date) ∧
  ∀ s : State, s.progress = .idle →
    exec (.rd32 .time) s = .next { s with
      trace := s.trace ++ [.read .time ((s.time &&& 0x077F7F7F) ||| (Config.unusedDraw s.draws &&& 0xF8808080))]
      draws := s.draws + 1 } ∧
    exec (.rd32 .date) s = .next { s with
      trace := s.trace ++ [.read .date ((s.date &&& 0x00FF3F3F) ||| (Config.unusedDraw s.draws &&& 0xFF00C0C0))]
      draws := s.draws + 1 }

/-- R152: WR32 stores the contract bits of its value in its register, appends one Write event, and changes nothing else.
That no Result event follows is the model's reading (log 12). -/
def Obligations.Wr32StoresContractBits : Prop :=
  ∀ v : Word, decodeRequest ⟨0x28, [.word v]⟩ = .ok (.wr32 .time v) ∧
    decodeRequest ⟨0x29, [.word v]⟩ = .ok (.wr32 .date v) ∧
    ∀ s : State, s.progress = .idle →
      exec (.wr32 .time v) s = .next { s with
        time := v &&& 0x077F7F7F, trace := s.trace ++ [.write .time v] } ∧
      exec (.wr32 .date v) s = .next { s with
        date := v &&& 0x00FF3F3F, trace := s.trace ++ [.write .date v] }

/-- R56: a read changes no register, and a second read of any register gives the same contract bits; after a write a
read of that register gives the contract bits of the value written, and the other register reads as before. -/
def Obligations.ReadsSeeLastWrite : Prop :=
  (∀ (w w' : Reg) (s t : State), exec (.rd32 w) s = .next t →
    reg w' t = reg w' s ∧
    ∀ p : Params, readValue p w' t &&& contractMask w' = readValue p w' s &&& contractMask w') ∧
  ∀ (w w' : Reg) (v : Word) (s t : State), exec (.wr32 w v) s = .next t →
    ∀ p : Params, readValue p w' t &&& contractMask w' =
      if w' = w then v &&& contractMask w' else readValue p w' s &&& contractMask w'

/-- R51, R52, R53: by address and size, a bus access reaches TIME at RTC_BASE and DATE at RTC_BASE + 4 as whole 32-bit
words, and every other access is refused. The address-level operations and the name of their refusal are the model's
choice (log 15), and so are addresses as unbounded natural numbers, which never wrap (log 23); that other offsets are
refused is decision D6. -/
def Obligations.OnlyWholeRegistersAccessible : Prop :=
  ∀ (p : Params) (a n : Nat) (v : Word) (s : State),
    memRead p a n s =
      (if n = 4 ∧ a = p.rtcBase then .ok (readValue p .time s, afterRead p .time s)
       else if n = 4 ∧ a = p.rtcBase + 4 then .ok (readValue p .date s, afterRead p .date s)
       else .error (.noSuchRegister a n)) ∧
    memWrite p a n v s =
      (if n = 4 ∧ a = p.rtcBase then .ok (afterWrite .time v s)
       else if n = 4 ∧ a = p.rtcBase + 4 then .ok (afterWrite .date v s)
       else .error (.noSuchRegister a n))

/-! ### Clock Guard (spec/43_clock_guard.md) -/

/-- R170: the mode check fails exactly where bit 22 is set, regardless of the other bits. -/
def Obligations.ModeCheckTestsBit22 : Prop :=
  ∀ tw : Word, decodeRequest ⟨0x30, [.word tw]⟩ = .ok (.modeCheck tw) ∧
    modeCheck tw = if tw &&& 0x00400000 = 0 then none else some .unsupportedMode

/-- R173: the liveness check fails exactly where both whole words are the sentinel 0x01000000. -/
def Obligations.LivenessCheckTestsSentinel : Prop :=
  ∀ r1 r2 : Word, decodeRequest ⟨0x31, [.word r1, .word r2]⟩ = .ok (.livenessCheck r1 r2) ∧
    (livenessCheck r1 r2 = some .notTicking ↔ r1 = 0x01000000 ∧ r2 = 0x01000000) ∧
    (livenessCheck r1 r2 = none ↔ ¬ (r1 = 0x01000000 ∧ r2 = 0x01000000))

/-- R178: the epoch check asks for the repair value 0x00130101 exactly where the decoded year byte is 38 or more. -/
def Obligations.EpochCheckTestsYear : Prop :=
  ∀ dw : Word, decodeRequest ⟨0x32, [.word dw]⟩ = .ok (.epochCheck dw) ∧
    epochCheck dw = if 38 ≤ bcd2bin ((dw.extractLsb' 16 8).setWidth 8) then some 0x00130101 else none

/-- R179: the test on the decoded year equals an unsigned test on the raw year byte. -/
def Obligations.EpochCheckEqualsByteTest : Prop :=
  (∀ b : Byte, 38 ≤ bcd2bin b ↔ 0x38 ≤ b.toNat) ∧
  ∀ dw : Word, epochCheck dw = if 0x38 ≤ dw.toNat / 2 ^ 16 % 2 ^ 8 then some 0x00130101 else none

/-- R170, R173, R178, R32: issued as operations, the three checks complete in every state in which nothing is in
progress, append their answer and change nothing else. That the answer is a Result event is the model's reading (log
13). -/
def Obligations.ChecksAnswerAndChangeNothing : Prop :=
  ∀ s : State, s.progress = .idle →
    (∀ tw : Word, exec (.modeCheck tw) s = .next { s with
      trace := s.trace ++ [.result (if tw.getLsbD 22 then .err .unsupportedMode else .ok)] }) ∧
    (∀ r1 r2 : Word, exec (.livenessCheck r1 r2) s = .next { s with
      trace := s.trace ++ [.result (if r1 = 0x01000000 ∧ r2 = 0x01000000 then .err .notTicking else .ok)] }) ∧
    ∀ dw : Word, exec (.epochCheck dw) s = .next { s with
      trace := s.trace ++ [.result (if 38 ≤ bcd2bin (field 16 8 dw) then .repair 0x00130101 else .noRepair)] }

/-- R185: PROBE, line by line of its pseudocode: each of its steps completes, with the effect of that line. Where one
step ends and the next begins is the model's reading of R14 (log 1). The draw counter is the model's own (log 4). -/
def Obligations.ProbeFollowsPseudocode : Prop :=
  decodeRequest ⟨0x38, []⟩ = .ok .probe ∧
  ∀ s : State,
    let rt := readValue Config.params .time s
    let rd := readValue Config.params .date s
    let dateRead : State := { s with
      trace := s.trace ++ [.read .date rd], draws := s.draws + 1, progress := .probe (.dateRead rd) }
    let failed (e : FailReason) : State := { s with
      phase := .failed e, trace := s.trace ++ [.result (.failed e)], progress := .idle }
    let ready : State := { s with phase := .ready, trace := s.trace ++ [.result .ready], progress := .idle }
    (s.progress = .idle → s.phase ≠ .uninit → exec .probe s = .refused .probeRepeated) ∧
    (s.progress = .idle → s.phase = .uninit → exec .probe s = .next (if Config.regionOk then
        { s with trace := s.trace ++ [.read .time rt], draws := s.draws + 1, progress := .probe (.modeRead rt) }
      else failed .regionUnavailable)) ∧
    (∀ r0, s.progress = .probe (.modeRead r0) → exec .probe s = .next (if r0.getLsbD 22 then failed .unsupportedMode
      else
        { s with trace := s.trace ++ [.read .time rt], draws := s.draws + 1, progress := .probe (.liveRead rt) })) ∧
    (∀ r1, s.progress = .probe (.liveRead r1) → exec .probe s = .next (if r1 = 0x01000000 then
        { s with trace := s.trace ++ [.wait], progress := .probe (.waited r1) }
      else dateRead)) ∧
    (∀ r1, s.progress = .probe (.waited r1) → exec .probe s = .next { s with
      trace := s.trace ++ [.read .time rt], draws := s.draws + 1, progress := .probe (.confirmed r1 rt) }) ∧
    (∀ r1 r2, s.progress = .probe (.confirmed r1 r2) → exec .probe s = .next (
      if r1 = 0x01000000 ∧ r2 = 0x01000000 then failed .notTicking else dateRead)) ∧
    (∀ d, s.progress = .probe (.dateRead d) → exec .probe s = .next (
      if 38 ≤ bcd2bin (field 16 8 d) then
        { s with
          date := 0x00130101, trace := s.trace ++ [.write .date 0x00130101], progress := .probe .repaired }
      else ready)) ∧
    (s.progress = .probe .repaired → exec .probe s = .next { s with
      trace := s.trace ++ [.log .epochRepair], progress := .probe .logged }) ∧
    (s.progress = .probe .logged → exec .probe s = .next ready)

/-- R185, R186, R187, R189, R265: whatever the RTC agent does between its steps and whatever the unused bits read as,
PROBE in phase UNINIT ends within eight steps, in one of its four outcomes, with the bus traffic of that outcome. The
number of steps is the model's reading of R14 (log 1); that the region is acquired first is what R187 calls the spec's
reading. -/
def Obligations.ProbeEndsInOneOfFourOutcomes : Prop :=
  ∀ (p : Params) (s : State), s.progress = .idle → s.phase = .uninit →
    ∃ t evs, runOp (probeStep p) (rtcTick p) 8 s = .next t ∧ t.progress = .idle ∧ t.trace = s.trace ++ evs ∧
      ((p.regionOk = false ∧ t.phase = .failed .regionUnavailable ∧ evs = [.result (.failed .regionUnavailable)]) ∨
       (p.regionOk = true ∧ ∃ r0 : Word,
         (r0.getLsbD 22 = true ∧ t.phase = .failed .unsupportedMode ∧
           evs = [.read .time r0, .result (.failed .unsupportedMode)]) ∨
         (r0.getLsbD 22 = false ∧ t.phase = .failed .notTicking ∧
           evs = [.read .time r0, .read .time 0x01000000, .wait, .read .time 0x01000000,
             .result (.failed .notTicking)]) ∨
         (r0.getLsbD 22 = false ∧ t.phase = .ready ∧ ∃ live tail : List Event, ∃ d : Word,
           evs = .read .time r0 :: live ++ .read .date d :: tail ∧
           ((∃ r1 : Word, r1 ≠ 0x01000000 ∧ live = [.read .time r1]) ∨
            (∃ r2 : Word, r2 ≠ 0x01000000 ∧ live = [.read .time 0x01000000, .wait, .read .time r2])) ∧
           ((bcd2bin (field 16 8 d) < 38 ∧ tail = [.result .ready]) ∨
            (38 ≤ bcd2bin (field 16 8 d) ∧
              tail = [.write .date 0x00130101, .log .epochRepair, .result .ready])))))

/-- R188: a step of PROBE never writes TIME; it writes DATE only with the repair value, on the repair path; and a step
that ends PROBE in failure leaves both as they are. -/
def Obligations.FailedProbeWritesNothing : Prop :=
  ∀ s t : State, exec .probe s = .next t →
    t.time = s.time ∧
    (t.date = s.date ∨ (t.date = 0x00130101 ∧ ∃ d, s.progress = .probe (.dateRead d) ∧ 38 ≤ bcd2bin (field 16 8 d))) ∧
    ((∃ e, t.phase = .failed e) → s.phase = .uninit → t.date = s.date)

/-! ### Device Adapter (spec/44_device_adapter.md) -/

/-- R200: outside phase READY both operations answer Err(NoDevice), with no bus access and nothing else changed. -/
def Obligations.AdapterAnswersNoDevice : Prop :=
  ∀ s : State, s.progress = .idle → s.phase ≠ .ready →
    exec .readTime s = .next { s with trace := s.trace ++ [.result (.err .noDevice)] } ∧
    ∀ t, exec (.setTime t) s = .next { s with trace := s.trace ++ [.result (.err .noDevice)] }

/-- R201: READ_TIME, line by line: in READY the two reads, in the order READ_ORDER, then the decoded answer; outside
READY the answer NoDevice. Where one step ends and the next begins is the model's reading of R14 (log 1). The draw
counter is the model's own (log 4). -/
def Obligations.ReadTimeFollowsPseudocode : Prop :=
  decodeRequest ⟨0x40, []⟩ = .ok .readTime ∧
  ∀ s : State,
    let rt := readValue Config.params .time s
    let rd := readValue Config.params .date s
    (s.progress = .idle → s.phase ≠ .ready →
      exec .readTime s = .next { s with trace := s.trace ++ [.result (.err .noDevice)] }) ∧
    (s.progress = .idle → s.phase = .ready → exec .readTime s = .next (if Config.readOrder = .timeFirst then
        { s with trace := s.trace ++ [.read .time rt], draws := s.draws + 1, progress := .readTime (.gotTime rt) }
      else
        { s with trace := s.trace ++ [.read .date rd], draws := s.draws + 1, progress := .readTime (.gotDate rd) })) ∧
    (∀ tw, s.progress = .readTime (.gotTime tw) → exec .readTime s = .next { s with
      trace := s.trace ++ [.read .date rd], draws := s.draws + 1, progress := .readTime (.gotBoth tw rd) }) ∧
    (∀ dw, s.progress = .readTime (.gotDate dw) → exec .readTime s = .next { s with
      trace := s.trace ++ [.read .time rt], draws := s.draws + 1, progress := .readTime (.gotBoth rt dw) }) ∧
    (∀ tw dw, s.progress = .readTime (.gotBoth tw dw) → exec .readTime s = .next { s with
      trace := s.trace ++ [.result (if Config.isValid (decodedTime tw dw) then .calendar (decodedTime tw dw)
        else .err .implausibleDate)]
      progress := .idle })

/-- R205: SET_TIME, line by line: in READY the two writes, TIME before DATE, then Success; OutOfContract before either
write; outside READY the answer NoDevice, whatever the record. Where one step ends and the next begins is the model's
reading of R14 (log 1), and that the fault names SET_TIME its choice (log 17). -/
def Obligations.SetTimeFollowsPseudocode : Prop :=
  ∀ (t : CalendarTime) (s : State),
    decodeRequest ⟨0x41, [.cal t]⟩ = .ok (.setTime t) ∧
    (s.progress = .idle → s.phase ≠ .ready →
      exec (.setTime t) s = .next { s with trace := s.trace ++ [.result (.err .noDevice)] }) ∧
    (s.progress = .idle → s.phase = .ready → ¬ InContract t →
      ∃ f, exec (.setTime t) s = .fault (.outOfContract .setTime f)) ∧
    (s.progress = .idle → s.phase = .ready → InContract t → exec (.setTime t) s = .next { s with
      time := timeWord t
      trace := s.trace ++ [.write .time (timeWord t)]
      progress := .setTime t (.timeWritten (dateWord t)) }) ∧
    (∀ dw, s.progress = .setTime t (.timeWritten dw) → exec (.setTime t) s = .next { s with
      date := dw &&& 0x00FF3F3F
      trace := s.trace ++ [.write .date dw]
      progress := .setTime t .dateWritten }) ∧
    (s.progress = .setTime t .dateWritten → exec (.setTime t) s = .next { s with
      trace := s.trace ++ [.result .success], progress := .idle })

/-- R201, R205, R265: whatever the RTC agent does between the steps, READ_TIME and an in-contract SET_TIME in phase
READY end within three steps, with exactly their two bus transactions and their answer. The number of steps is the
model's reading of R14 (log 1). -/
def Obligations.AdapterOperationsEnd : Prop :=
  ∀ (p : Params) (s : State), s.progress = .idle → s.phase = .ready →
    (∃ t tw dw, runOp (readTimeStep p) (rtcTick p) 3 s = .next t ∧ t.progress = .idle ∧ t.phase = .ready ∧
      t.trace = s.trace ++ (match p.readOrder with
        | .timeFirst => [.read .time tw, .read .date dw, .result (decodeResult p tw dw)]
        | .dateFirst => [.read .date dw, .read .time tw, .result (decodeResult p tw dw)])) ∧
    ∀ c : CalendarTime, InContract c →
      ∃ t, runOp (execSetTime c) (rtcTick p) 3 s = .next t ∧ t.progress = .idle ∧ t.phase = .ready ∧
        t.trace = s.trace ++ [.write .time (timeWord c), .write .date (dateWord c), .result .success]

/-- R202: the torn result is admitted: in either read order, whatever clean pair the RTC agent moves to between the two
reads, some parameters make READ_TIME answer the first word from before and the second from after. -/
def Obligations.TornReadAdmitted : Prop :=
  ∀ (o : ReadOrder) (s : State) (t₁ d₁ : Word), RegsClean s → s.progress = .idle → s.phase = .ready →
    t₁ &&& 0xF8808080 = 0 → d₁ &&& 0xFF00C0C0 = 0 →
    ∃ (p : Params) (t : State), p.readOrder = o ∧ runOp (readTimeStep p) (rtcTick p) 3 s = .next t ∧
      t.trace = s.trace ++ (match o with
        | .timeFirst => [.read .time s.time, .read .date d₁, .result (.calendar (decodedTime s.time d₁))]
        | .dateFirst => [.read .date s.date, .read .time t₁, .result (.calendar (decodedTime t₁ s.date))])

/-- R24, R76 (a): what the unused bits read as does not reach READ_TIME's answer, nor the registers. -/
def Obligations.ReadTimeIgnoresUnusedDraws : Prop :=
  ∀ (p : Params) (f : Nat → Word) (s t t' : State), s.progress = .idle →
    runOp (readTimeStep p) (rtcTick p) 3 s = .next t →
    runOp (readTimeStep { p with unusedDraw := f }) (rtcTick { p with unusedDraw := f }) 3 s = .next t' →
    t.trace.getLast? = t'.trace.getLast? ∧ t.time = t'.time ∧ t.date = t'.date ∧ t.phase = t'.phase

/-- R206: after the first step of an issued SET_TIME the machine is in the torn state, new TIME with old DATE and the
operation still in progress; a reset may fall there, and then DATE is never written. The reset line is the model's
choice (log 8). -/
def Obligations.TornWriteReachable : Prop :=
  ∀ (s : State) (c : CalendarTime) (rest : List Request), s.resetLine = false → s.progress = .idle →
    s.phase = .ready → InContract c → s.program = encodeInstr (.setTime c) :: rest →
    ∃ t, step s = .next t ∧ t.time = timeWord c ∧ t.date = (rtcTick Config.params s).date ∧
      t.progress = .setTime c (.timeWritten (dateWord c)) ∧
      ∃ u, step { t with resetLine := true } = .next u ∧ u.progress = .idle ∧ u.phase = .uninit ∧
        u.date = (rtcTick Config.params t).date

/-- R59 (1), R207: with no RTC step in between, READ_TIME after SET_TIME answers the record set, for a year in 100..199
that the plausibility check accepts. -/
def Obligations.ReadTimeAfterSetTime : Prop :=
  ∀ (p : Params) (c : CalendarTime) (s : State), InContract c → 100 ≤ c.year → c.year ≤ 199 →
    p.isValid c = true → s.progress = .idle → s.phase = .ready →
    ∃ t u, runOp (execSetTime c) id 3 s = .next t ∧ runOp (readTimeStep p) id 3 t = .next u ∧
      u.trace.getLast? = some (.result (.calendar c))

/-! ### The whole machine -/

/-- R220: the numeric codes and the classes of the error kinds. -/
def Obligations.ErrorCodesAndClasses : Prop :=
  (errorCode .unsupportedMode = 1 ∧ errorClass .unsupportedMode = .terminalFailure) ∧
  (errorCode .notTicking = 2 ∧ errorClass .notTicking = .terminalFailure) ∧
  (errorCode .implausibleDate = 3 ∧ errorClass .implausibleDate = .returnedError) ∧
  (errorCode .regionUnavailable = 4 ∧ errorClass .regionUnavailable = .terminalFailure) ∧
  (errorCode .noDevice = 5 ∧ errorClass .noDevice = .returnedError) ∧
  (errorCode .outOfContract = 16 ∧ errorClass .outOfContract = .fault) ∧
  (errorCode .illegalOperation = 32 ∧ errorClass .illegalOperation = .refusal) ∧
  (errorCode .probeRepeated = 33 ∧ errorClass .probeRepeated = .refusal)

/-- R31: only PROBE changes the phase, only from UNINIT, and READY and FAILED are kept by every step but reset. -/
def Obligations.PhaseChangesOnlyByProbe : Prop :=
  (∀ (i : Instr) (s t : State), exec i s = .next t → t.phase ≠ s.phase → i = .probe) ∧
  ∀ s t : State, Inv s → s.resetLine = false → step s = .next t → t.phase ≠ s.phase →
    s.phase = .uninit ∧ (t.phase = .ready ∨ ∃ e, t.phase = .failed e)

/-- R7, R32: a step other than reset appends at most one event to the trace and takes none away. The cut into steps is
the model's reading of R14 (log 1). -/
def Obligations.StepAppendsAtMostOneEvent : Prop :=
  ∀ s t : State, s.resetLine = false → step s = .next t → ∃ evs : List Event,
    t.trace = s.trace ++ evs ∧ evs.length ≤ 1

/-- R21: what an operation leaves unchanged. TIME is written only by WR32 of TIME and by SET_TIME; DATE only by WR32 of
DATE, by PROBE and by SET_TIME; the phase only by PROBE; only RD32, PROBE and READ_TIME take a draw of unused bits; and
the codec's operations and the three checks write nothing but the trace. The fields `program`, `level`, `resetLine`,
`draws` and `moves` are the model's (log 4, 5, 7, 8, 9). -/
def Obligations.OperationsFrame : Prop :=
  ∀ (i : Instr) (s t : State), exec i s = .next t →
    t.program = s.program ∧ t.level = s.level ∧ t.resetLine = s.resetLine ∧ t.moves = s.moves ∧
    (t.time ≠ s.time → (∃ v, i = .wr32 .time v) ∨ ∃ c, i = .setTime c) ∧
    (t.date ≠ s.date → (∃ v, i = .wr32 .date v) ∨ i = .probe ∨ ∃ c, i = .setTime c) ∧
    (t.phase ≠ s.phase → i = .probe) ∧
    (t.draws ≠ s.draws → (∃ w, i = .rd32 w) ∨ i = .probe ∨ i = .readTime) ∧
    (i.mnemonic ∈ [.bin2bcd, .bcd2bin, .encodeTime, .encodeDate, .encode, .decodeTime, .decodeDate, .decode,
        .modeCheck, .livenessCheck, .epochCheck] → t = { s with trace := t.trace })

/-- R62: while an operation is in progress, no other operation starts. The refusal is the model's way to say so (log
14). -/
def Obligations.NoOperationOverlaps : Prop :=
  ∀ (i : Instr) (s : State), s.progress ≠ .idle → currentInstr s.progress ≠ some i →
    exec i s = .refused .operationInProgress

/-- R81, R100 to R205: in every state in which nothing is in progress each operation either completes its step, or
faults OutOfContract, or is the second PROBE: no other stop exists. One step of the operation is meant (log 1). -/
def Obligations.NothingElseStops : Prop :=
  ∀ (i : Instr) (s : State), s.progress = .idle →
    (∃ t, exec i s = .next t) ∨ (∃ m f, exec i s = .fault (.outOfContract m f)) ∨
    (i = .probe ∧ s.phase ≠ .uninit ∧ exec i s = .refused .probeRepeated)

/-- R156: where RTC_STEP is a relation `R` that R157 admits, an opportunity of the RTC agent leads from clean registers
only to the pairs that some number of RTC_TICKs reach, each keeping the contract bits of the pair it chooses; and every
pair so reached is one that the agent can lead to. How one opportunity stands for a number of ticks is the model's choice
(log 5), and which relations are admitted its reading of R157 (log 22). -/
def Obligations.RtcStepsWithinRelation : Prop :=
  ∀ (R : Word × Word → Word × Word → Prop) (s : State), RtcStepAdmitted R → RegsClean s →
    let tick (q r : Word × Word) : Prop := ∃ c : Word × Word, R q c ∧ r = (c.1 &&& 0x077F7F7F, c.2 &&& 0x00FF3F3F)
    (∀ p : Params, RtcWithin R p →
      Relation.ReflTransGen tick (s.time, s.date) ((rtcTick p s).time, (rtcTick p s).date)) ∧
    ∀ q : Word × Word, Relation.ReflTransGen tick (s.time, s.date) q →
      ∃ p : Params, RtcWithin R p ∧ (rtcTick p s).time = q.1 ∧ (rtcTick p s).date = q.2

/-- R157: a narrowed RTC_STEP leaves the unsupported pairs open. An RTC agent keeps within a relation only where the
relation relates every pair with the 12h-mode flag set, or with a field that is not valid BCD in its range, to every
pair; and from registers that hold such a pair, whatever the relation, the agent can lead to the contract bits of any
pair. Which pairs are unsupported is the model's reading (log 22). -/
def Obligations.NarrowedRtcLeavesUnsupportedOpen : Prop :=
  (∀ (R : Word × Word → Word × Word → Prop) (p : Params), RtcWithin R p → ∀ q r : Word × Word,
    (q.1.getLsbD 22 = true ∨ validBcd (field 0 7 q.1) = false ∨ validBcd (field 8 7 q.1) = false ∨
      validBcd (field 16 6 q.1) = false ∨ validBcd (field 0 6 q.2) = false ∨ validBcd (field 8 6 q.2) = false ∨
      validBcd (field 16 8 q.2) = false ∨ 59 < bcd2bin (field 0 7 q.1) ∨ 59 < bcd2bin (field 8 7 q.1) ∨
      23 < bcd2bin (field 16 6 q.1) ∨ 6 < bcd2bin (field 24 3 q.1) ∨ bcd2bin (field 0 6 q.2) < 1 ∨
      31 < bcd2bin (field 0 6 q.2) ∨ bcd2bin (field 8 6 q.2) < 1 ∨ 12 < bcd2bin (field 8 6 q.2)) → R q r) ∧
  ∀ (R : Word × Word → Word × Word → Prop) (s : State), RtcStepAdmitted R → RegsClean s →
    rtcSupported (s.time, s.date) = false → ∀ t d : Word, ∃ p : Params, RtcWithin R p ∧
      (rtcTick p s).time = t &&& 0x077F7F7F ∧ (rtcTick p s).date = d &&& 0x00FF3F3F
end

