-- ==== Sys2Proof/Laws/Decode.lean ====
section
/-!
SUPPORT. What the decoder answers, once: a code and operands that its row of spec/30_encoding.md R81 accepts decode to
the row's operation; and the cases of a decoding that succeeds.
-/

namespace Sys2Proof

/-- A request decodes to what its code's row builds from its operands. -/
theorem decodeRequest_of_row {c : Byte} {args : List Operand} {row : OpcodeRow} {i : Instr}
    (h : lookupRow c = some row) (hb : buildInstr row.mnemonic c args = some i) :
    decodeRequest ⟨c, args⟩ = .ok i := by
  simp [decodeRequest, h, hb]

/-- A request that decodes to an operation has a row, and the row builds the operation from its operands. -/
theorem decodeRequest_cases {r : Request} {i : Instr} (h : decodeRequest r = .ok i) :
    ∃ row, lookupRow r.code = some row ∧ buildInstr row.mnemonic r.code r.args = some i := by
  unfold decodeRequest at h
  split at h
  · simp at h
  · rename_i row hr
    split at h
    · rename_i j hj
      exact ⟨row, hr, by rw [hj]; simpa using h⟩
    · simp at h

/-- A code that no row covers gets the verdict IllegalOperation (R84). -/
theorem decodeRequest_of_no_row {c : Byte} (args : List Operand) (h : lookupRow c = none) :
    decodeRequest ⟨c, args⟩ = .error (.illegalOperation c) := by
  simp [decodeRequest, h]

/-- What a row builds is an operation of the row's mnemonic. -/
theorem buildInstr_mnemonic {m : Mnemonic} {c : Byte} {args : List Operand} {i : Instr}
    (h : buildInstr m c args = some i) : i.mnemonic = m := by
  unfold buildInstr at h
  split at h <;> split at h <;> first | (cases h; rfl) | simp at h

end Sys2Proof
end

