-- ==== Sys2Proof/Laws/State.lean ====
section
/-!
SUPPORT. What each named operation of Machine/Ops.lean (and `placeRequest` of Machine/Fetch.lean) makes of each field
of the state: one lemma for each operation and field, each true by unfolding, so that no proof unfolds an update.
-/

namespace Sys2Proof.Machine

@[simp] theorem emit_time (e : Event) (s : State) : (emit e s).time = s.time := rfl
@[simp] theorem emit_date (e : Event) (s : State) : (emit e s).date = s.date := rfl
@[simp] theorem emit_phase (e : Event) (s : State) : (emit e s).phase = s.phase := rfl
@[simp] theorem emit_trace (e : Event) (s : State) : (emit e s).trace = s.trace ++ [e] := rfl
@[simp] theorem emit_progress (e : Event) (s : State) : (emit e s).progress = s.progress := rfl
@[simp] theorem emit_program (e : Event) (s : State) : (emit e s).program = s.program := rfl
@[simp] theorem emit_level (e : Event) (s : State) : (emit e s).level = s.level := rfl
@[simp] theorem emit_resetLine (e : Event) (s : State) : (emit e s).resetLine = s.resetLine := rfl
@[simp] theorem emit_draws (e : Event) (s : State) : (emit e s).draws = s.draws := rfl
@[simp] theorem emit_moves (e : Event) (s : State) : (emit e s).moves = s.moves := rfl

@[simp] theorem suspend_time (q : Progress) (s : State) : (suspend q s).time = s.time := rfl
@[simp] theorem suspend_date (q : Progress) (s : State) : (suspend q s).date = s.date := rfl
@[simp] theorem suspend_phase (q : Progress) (s : State) : (suspend q s).phase = s.phase := rfl
@[simp] theorem suspend_trace (q : Progress) (s : State) : (suspend q s).trace = s.trace := rfl
@[simp] theorem suspend_progress (q : Progress) (s : State) : (suspend q s).progress = q := rfl
@[simp] theorem suspend_program (q : Progress) (s : State) : (suspend q s).program = s.program := rfl
@[simp] theorem suspend_level (q : Progress) (s : State) : (suspend q s).level = s.level := rfl
@[simp] theorem suspend_resetLine (q : Progress) (s : State) : (suspend q s).resetLine = s.resetLine := rfl
@[simp] theorem suspend_draws (q : Progress) (s : State) : (suspend q s).draws = s.draws := rfl
@[simp] theorem suspend_moves (q : Progress) (s : State) : (suspend q s).moves = s.moves := rfl

@[simp] theorem finish_time (r : Result) (s : State) : (finish r s).time = s.time := rfl
@[simp] theorem finish_date (r : Result) (s : State) : (finish r s).date = s.date := rfl
@[simp] theorem finish_phase (r : Result) (s : State) : (finish r s).phase = s.phase := rfl
@[simp] theorem finish_trace (r : Result) (s : State) : (finish r s).trace = s.trace ++ [.result r] := rfl
@[simp] theorem finish_progress (r : Result) (s : State) : (finish r s).progress = .idle := rfl
@[simp] theorem finish_program (r : Result) (s : State) : (finish r s).program = s.program := rfl
@[simp] theorem finish_level (r : Result) (s : State) : (finish r s).level = s.level := rfl
@[simp] theorem finish_resetLine (r : Result) (s : State) : (finish r s).resetLine = s.resetLine := rfl
@[simp] theorem finish_draws (r : Result) (s : State) : (finish r s).draws = s.draws := rfl
@[simp] theorem finish_moves (r : Result) (s : State) : (finish r s).moves = s.moves := rfl

@[simp] theorem failProbe_time (e : FailReason) (s : State) : (failProbe e s).time = s.time := rfl
@[simp] theorem failProbe_date (e : FailReason) (s : State) : (failProbe e s).date = s.date := rfl
@[simp] theorem failProbe_phase (e : FailReason) (s : State) : (failProbe e s).phase = .failed e := rfl
@[simp] theorem failProbe_trace (e : FailReason) (s : State) : (failProbe e s).trace = s.trace ++ [.result (.failed e)] := rfl
@[simp] theorem failProbe_progress (e : FailReason) (s : State) : (failProbe e s).progress = .idle := rfl
@[simp] theorem failProbe_program (e : FailReason) (s : State) : (failProbe e s).program = s.program := rfl
@[simp] theorem failProbe_level (e : FailReason) (s : State) : (failProbe e s).level = s.level := rfl
@[simp] theorem failProbe_resetLine (e : FailReason) (s : State) : (failProbe e s).resetLine = s.resetLine := rfl
@[simp] theorem failProbe_draws (e : FailReason) (s : State) : (failProbe e s).draws = s.draws := rfl
@[simp] theorem failProbe_moves (e : FailReason) (s : State) : (failProbe e s).moves = s.moves := rfl

@[simp] theorem readyProbe_time (s : State) : (readyProbe s).time = s.time := rfl
@[simp] theorem readyProbe_date (s : State) : (readyProbe s).date = s.date := rfl
@[simp] theorem readyProbe_phase (s : State) : (readyProbe s).phase = .ready := rfl
@[simp] theorem readyProbe_trace (s : State) : (readyProbe s).trace = s.trace ++ [.result .ready] := rfl
@[simp] theorem readyProbe_progress (s : State) : (readyProbe s).progress = .idle := rfl
@[simp] theorem readyProbe_program (s : State) : (readyProbe s).program = s.program := rfl
@[simp] theorem readyProbe_level (s : State) : (readyProbe s).level = s.level := rfl
@[simp] theorem readyProbe_resetLine (s : State) : (readyProbe s).resetLine = s.resetLine := rfl
@[simp] theorem readyProbe_draws (s : State) : (readyProbe s).draws = s.draws := rfl
@[simp] theorem readyProbe_moves (s : State) : (readyProbe s).moves = s.moves := rfl

@[simp] theorem afterRead_time (p : Params) (w : Reg) (s : State) : (afterRead p w s).time = s.time := rfl
@[simp] theorem afterRead_date (p : Params) (w : Reg) (s : State) : (afterRead p w s).date = s.date := rfl
@[simp] theorem afterRead_phase (p : Params) (w : Reg) (s : State) : (afterRead p w s).phase = s.phase := rfl
@[simp] theorem afterRead_trace (p : Params) (w : Reg) (s : State) : (afterRead p w s).trace = s.trace ++ [.read w (readValue p w s)] := rfl
@[simp] theorem afterRead_progress (p : Params) (w : Reg) (s : State) : (afterRead p w s).progress = s.progress := rfl
@[simp] theorem afterRead_program (p : Params) (w : Reg) (s : State) : (afterRead p w s).program = s.program := rfl
@[simp] theorem afterRead_level (p : Params) (w : Reg) (s : State) : (afterRead p w s).level = s.level := rfl
@[simp] theorem afterRead_resetLine (p : Params) (w : Reg) (s : State) : (afterRead p w s).resetLine = s.resetLine := rfl
@[simp] theorem afterRead_draws (p : Params) (w : Reg) (s : State) : (afterRead p w s).draws = s.draws + 1 := rfl
@[simp] theorem afterRead_moves (p : Params) (w : Reg) (s : State) : (afterRead p w s).moves = s.moves := rfl

@[simp] theorem rtcTick_time (p : Params) (s : State) : (rtcTick p s).time = (p.rtcMove s.moves (s.time, s.date)).1 &&& contractMask .time := rfl
@[simp] theorem rtcTick_date (p : Params) (s : State) : (rtcTick p s).date = (p.rtcMove s.moves (s.time, s.date)).2 &&& contractMask .date := rfl
@[simp] theorem rtcTick_phase (p : Params) (s : State) : (rtcTick p s).phase = s.phase := rfl
@[simp] theorem rtcTick_trace (p : Params) (s : State) : (rtcTick p s).trace = s.trace := rfl
@[simp] theorem rtcTick_progress (p : Params) (s : State) : (rtcTick p s).progress = s.progress := rfl
@[simp] theorem rtcTick_program (p : Params) (s : State) : (rtcTick p s).program = s.program := rfl
@[simp] theorem rtcTick_level (p : Params) (s : State) : (rtcTick p s).level = s.level := rfl
@[simp] theorem rtcTick_resetLine (p : Params) (s : State) : (rtcTick p s).resetLine = s.resetLine := rfl
@[simp] theorem rtcTick_draws (p : Params) (s : State) : (rtcTick p s).draws = s.draws := rfl
@[simp] theorem rtcTick_moves (p : Params) (s : State) : (rtcTick p s).moves = s.moves + 1 := rfl

@[simp] theorem hostReset_time (s : State) : (hostReset s).time = s.time := rfl
@[simp] theorem hostReset_date (s : State) : (hostReset s).date = s.date := rfl
@[simp] theorem hostReset_phase (s : State) : (hostReset s).phase = .uninit := rfl
@[simp] theorem hostReset_trace (s : State) : (hostReset s).trace = [] := rfl
@[simp] theorem hostReset_progress (s : State) : (hostReset s).progress = .idle := rfl
@[simp] theorem hostReset_program (s : State) : (hostReset s).program = s.program := rfl
@[simp] theorem hostReset_level (s : State) : (hostReset s).level = s.level := rfl
@[simp] theorem hostReset_resetLine (s : State) : (hostReset s).resetLine = false := rfl
@[simp] theorem hostReset_draws (s : State) : (hostReset s).draws = s.draws := rfl
@[simp] theorem hostReset_moves (s : State) : (hostReset s).moves = s.moves := rfl

@[simp] theorem placeRequest_time (r : Request) (s : State) : (placeRequest r s).time = s.time := rfl
@[simp] theorem placeRequest_date (r : Request) (s : State) : (placeRequest r s).date = s.date := rfl
@[simp] theorem placeRequest_phase (r : Request) (s : State) : (placeRequest r s).phase = s.phase := rfl
@[simp] theorem placeRequest_trace (r : Request) (s : State) : (placeRequest r s).trace = s.trace := rfl
@[simp] theorem placeRequest_progress (r : Request) (s : State) : (placeRequest r s).progress = .idle := rfl
@[simp] theorem placeRequest_program (r : Request) (s : State) : (placeRequest r s).program = r :: s.program := rfl
@[simp] theorem placeRequest_level (r : Request) (s : State) : (placeRequest r s).level = s.level := rfl
@[simp] theorem placeRequest_resetLine (r : Request) (s : State) : (placeRequest r s).resetLine = false := rfl
@[simp] theorem placeRequest_draws (r : Request) (s : State) : (placeRequest r s).draws = s.draws := rfl
@[simp] theorem placeRequest_moves (r : Request) (s : State) : (placeRequest r s).moves = s.moves := rfl

@[simp] theorem setReg_time_time (v : Word) (s : State) : (setReg .time v s).time = v &&& contractMask .time := rfl
@[simp] theorem setReg_date_time (v : Word) (s : State) : (setReg .date v s).time = s.time := rfl
@[simp] theorem setReg_time_date (v : Word) (s : State) : (setReg .time v s).date = s.date := rfl
@[simp] theorem setReg_date_date (v : Word) (s : State) : (setReg .date v s).date = v &&& contractMask .date := rfl
@[simp] theorem setReg_phase (w : Reg) (v : Word) (s : State) : (setReg w v s).phase = s.phase := by cases w <;> rfl
@[simp] theorem setReg_trace (w : Reg) (v : Word) (s : State) : (setReg w v s).trace = s.trace := by cases w <;> rfl
@[simp] theorem setReg_progress (w : Reg) (v : Word) (s : State) : (setReg w v s).progress = s.progress := by cases w <;> rfl
@[simp] theorem setReg_program (w : Reg) (v : Word) (s : State) : (setReg w v s).program = s.program := by cases w <;> rfl
@[simp] theorem setReg_level (w : Reg) (v : Word) (s : State) : (setReg w v s).level = s.level := by cases w <;> rfl
@[simp] theorem setReg_resetLine (w : Reg) (v : Word) (s : State) : (setReg w v s).resetLine = s.resetLine := by cases w <;> rfl
@[simp] theorem setReg_draws (w : Reg) (v : Word) (s : State) : (setReg w v s).draws = s.draws := by cases w <;> rfl
@[simp] theorem setReg_moves (w : Reg) (v : Word) (s : State) : (setReg w v s).moves = s.moves := by cases w <;> rfl

@[simp] theorem afterWrite_time_time (v : Word) (s : State) : (afterWrite .time v s).time = v &&& contractMask .time := rfl
@[simp] theorem afterWrite_date_time (v : Word) (s : State) : (afterWrite .date v s).time = s.time := rfl
@[simp] theorem afterWrite_time_date (v : Word) (s : State) : (afterWrite .time v s).date = s.date := rfl
@[simp] theorem afterWrite_date_date (v : Word) (s : State) : (afterWrite .date v s).date = v &&& contractMask .date := rfl
@[simp] theorem afterWrite_phase (w : Reg) (v : Word) (s : State) : (afterWrite w v s).phase = s.phase := by cases w <;> rfl
@[simp] theorem afterWrite_trace (w : Reg) (v : Word) (s : State) : (afterWrite w v s).trace = s.trace ++ [.write w v] := by cases w <;> rfl
@[simp] theorem afterWrite_progress (w : Reg) (v : Word) (s : State) : (afterWrite w v s).progress = s.progress := by cases w <;> rfl
@[simp] theorem afterWrite_program (w : Reg) (v : Word) (s : State) : (afterWrite w v s).program = s.program := by cases w <;> rfl
@[simp] theorem afterWrite_level (w : Reg) (v : Word) (s : State) : (afterWrite w v s).level = s.level := by cases w <;> rfl
@[simp] theorem afterWrite_resetLine (w : Reg) (v : Word) (s : State) : (afterWrite w v s).resetLine = s.resetLine := by cases w <;> rfl
@[simp] theorem afterWrite_draws (w : Reg) (v : Word) (s : State) : (afterWrite w v s).draws = s.draws := by cases w <;> rfl
@[simp] theorem afterWrite_moves (w : Reg) (v : Word) (s : State) : (afterWrite w v s).moves = s.moves := by cases w <;> rfl

end Sys2Proof.Machine
end

