-- ==== Sys2Proof/Laws/Ops.lean ====
section
/-!
SUPPORT. One lemma for each shared operation, saying everything it can do: the registers and their masks, starting an
operation only when idle, the contract checks, and the cases of a fetch and of a step.
-/

namespace Sys2Proof.Machine

/-- The contract mask and the unused mask of a register have no bit in common (R72). -/
theorem contractMask_and_unusedMask (w : Reg) : contractMask w &&& unusedMask w = 0 := by
  cases w <;> decide

/-- The two masks of a register have every bit between them (R72). -/
theorem contractMask_or_unusedMask (w : Reg) : contractMask w ||| unusedMask w = BitVec.allOnes 32 := by
  cases w <;> decide

/-- A value under its contract mask has no unused bit set. -/
theorem masked_clean (w : Reg) (v : Word) : v &&& contractMask w &&& unusedMask w = 0 := by
  rw [BitVec.and_assoc, contractMask_and_unusedMask]; exact BitVec.and_zero

/-- A value with no unused bit set is its own contract part. -/
theorem masked_eq_self (w : Reg) (v : Word) (h : v &&& unusedMask w = 0) : v &&& contractMask w = v := by
  have e : v &&& (contractMask w ||| unusedMask w) = v := by
    rw [contractMask_or_unusedMask, BitVec.and_allOnes]
  rw [BitVec.and_or_distrib_left, h] at e
  exact (BitVec.or_zero (x := v &&& contractMask w)).symm.trans e

/-- Reading the register that was written gives the contract bits of the value. -/
@[simp] theorem reg_setReg_self (w : Reg) (v : Word) (s : State) : reg w (setReg w v s) = v &&& contractMask w := by
  cases w <;> rfl

/-- Writing one register leaves the other alone. -/
theorem reg_setReg_other (w w' : Reg) (v : Word) (s : State) (h : w' ≠ w) : reg w' (setReg w v s) = reg w' s := by
  cases w <;> cases w' <;> simp_all [reg]

/-- A register write keeps the registers clean. -/
theorem setReg_regsClean (w : Reg) (v : Word) (s : State) (h : RegsClean s) : RegsClean (setReg w v s) := by
  cases w
  · exact ⟨masked_clean .time v, h.2⟩
  · exact ⟨h.1, masked_clean .date v⟩

/-- An RTC step leaves the registers clean, whatever they were. -/
theorem rtcTick_regsClean (p : Params) (s : State) : RegsClean (rtcTick p s) :=
  ⟨masked_clean .time _, masked_clean .date _⟩

/-- The registers keep contract bits only, and a pair of contract bits whole. -/
theorem rtcStored_clean (q : Word × Word) :
    (rtcStored q).1 &&& unusedMask .time = 0 ∧ (rtcStored q).2 &&& unusedMask .date = 0 :=
  ⟨masked_clean .time _, masked_clean .date _⟩

/-- A pair with no unused bit set is kept as it is. -/
theorem rtcStored_of_clean (q : Word × Word) (h : q.1 &&& unusedMask .time = 0 ∧ q.2 &&& unusedMask .date = 0) :
    rtcStored q = q :=
  Prod.ext (masked_eq_self .time _ h.1) (masked_eq_self .date _ h.2)

/-- Any number of RTC_TICKs from a clean pair leads to a clean pair (R156). -/
theorem rtcTicks_clean {R : Word × Word → Word × Word → Prop} {q r : Word × Word}
    (h : Relation.ReflTransGen (RtcTickTo R) q r)
    (hq : q.1 &&& unusedMask .time = 0 ∧ q.2 &&& unusedMask .date = 0) :
    r.1 &&& unusedMask .time = 0 ∧ r.2 &&& unusedMask .date = 0 := by
  cases h with
  | refl => exact hq
  | tail _ hs =>
    obtain ⟨c, -, rfl⟩ := hs
    exact rtcStored_clean c

/-- The default RTC_STEP is admitted, and every RTC agent moves within it (R156, R157). -/
theorem rtcWithin_default (p : Params) : RtcWithin (fun _ _ => True) p :=
  ⟨fun _ _ _ => trivial, fun n q =>
    ⟨rtcStored (p.rtcMove n q), .single ⟨p.rtcMove n q, trivial, rfl⟩, (rtcStored_of_clean _ (rtcStored_clean _)).symm⟩⟩

/-- What an RTC agent within a relation leaves in clean registers is what some number of ticks reaches (R156). -/
theorem rtcTick_of_within {R : Word × Word → Word × Word → Prop} {p : Params} {s : State} (h : RtcWithin R p)
    (hs : RegsClean s) : ∃ r, Relation.ReflTransGen (RtcTickTo R) (s.time, s.date) r ∧
      (rtcTick p s).time = r.1 ∧ (rtcTick p s).date = r.2 := by
  obtain ⟨r, hr, he⟩ := h.2 s.moves (s.time, s.date)
  rw [rtcStored_of_clean r (rtcTicks_clean hr hs)] at he
  exact ⟨r, hr, congrArg Prod.fst he, congrArg Prod.snd he⟩

/-- The contract bits of a read are the register's (R150). -/
theorem readValue_contract (p : Params) (w : Reg) (s : State) :
    readValue p w s &&& contractMask w = reg w s &&& contractMask w := by
  have e : unusedMask w &&& contractMask w = 0 := by rw [BitVec.and_comm, contractMask_and_unusedMask]
  simp only [readValue]
  rw [BitVec.and_or_distrib_right, BitVec.and_assoc (p.unusedDraw s.draws), e, BitVec.and_assoc, BitVec.and_self]
  simp

/-- Where nothing is in progress, an operation starts. -/
theorem whenIdle_of_idle (s : State) (o : Out) (h : s.progress = .idle) : whenIdle s o = o := by
  simp [whenIdle, h]

/-- Where an operation is in progress, no other starts (R62). -/
theorem whenIdle_of_busy (s : State) (o : Out) (h : s.progress ≠ .idle) :
    whenIdle s o = .refused .operationInProgress := by
  unfold whenIdle
  split <;> simp_all

/-- An operation of one step answers a next state only from a state in which nothing is in progress. -/
theorem whenIdle_next (s t : State) (o : Out) (h : whenIdle s o = .next t) : s.progress = .idle ∧ o = .next t := by
  unfold whenIdle at h
  split at h <;> simp_all

/-- Ending an operation of one step changes the trace only. -/
theorem finish_of_idle (r : Result) (s : State) (h : s.progress = .idle) :
    finish r s = { s with trace := s.trace ++ [.result r] } := by
  cases s; cases h; rfl

/-- The check of the time fields finds nothing exactly where they are in contract (R27). -/
theorem badTimeField_none (t : CalendarTime) : badTimeField t = none ↔ InContractTime t := by
  unfold badTimeField InContractTime
  repeat' split
  all_goals simp_all

/-- The check of the date fields finds nothing exactly where they are in contract (R27). -/
theorem badDateField_none (t : CalendarTime) : badDateField t = none ↔ InContractDate t := by
  unfold badDateField InContractDate
  repeat' split
  all_goals simp_all

/-- The check of the seven fields finds nothing exactly where the record is in contract (R27). -/
theorem badField_none (t : CalendarTime) : badField t = none ↔ InContract t := by
  unfold badField
  rw [InContract, ← badTimeField_none, ← badDateField_none]
  split <;> simp_all

/-- The position of an operation says which operation it is. -/
theorem currentInstr_none (q : Progress) : currentInstr q = none ↔ q = .idle := by
  cases q <;> simp [currentInstr]

/-- Everything a fetch can do: there is nothing to run, or the operation in progress is gone on with, or the head of
the host's list is issued. -/
theorem fetch_cases (s : State) (i : Instr) (t : State) (h : fetch s = .ok (some (i, t))) :
    (currentInstr s.progress = some i ∧ t = s) ∨
    (s.progress = .idle ∧ ∃ r rest, s.program = r :: rest ∧ decodeRequest r = .ok i ∧
      admitted s.level i.mnemonic = true ∧ t = { s with program := rest }) := by
  unfold fetch at h
  split at h
  · rename_i j hj
    simp only [Except.ok.injEq, Option.some.injEq, Prod.mk.injEq] at h
    exact .inl ⟨h.1 ▸ hj, h.2.symm⟩
  · rename_i hj
    split at h
    · simp at h
    · rename_i r rest hp
      unfold issue at h
      split at h
      · simp at h
      · rename_i j hd
        split at h
        · rename_i ha
          simp only [Except.ok.injEq, Option.some.injEq, Prod.mk.injEq] at h
          obtain ⟨rfl, rfl⟩ := h
          exact .inr ⟨(currentInstr_none _).1 hj, r, rest, hp, hd, ha, rfl⟩
        · simp at h

/-- Everything a step can do when it answers a next state: reset, the RTC agent alone, or one step of an operation. -/
theorem step_cases (s t : State) (h : step s = .next t) :
    (s.resetLine = true ∧ t = hostReset (rtcTick Config.params s)) ∨
    (s.resetLine = false ∧ t = rtcTick Config.params s) ∨
    (s.resetLine = false ∧ ∃ i s₂, fetch (rtcTick Config.params s) = .ok (some (i, s₂)) ∧ exec i s₂ = .next t) := by
  unfold step at h
  simp only at h
  split at h
  · rename_i hr
    exact .inl ⟨hr, (Host.Outcome.next.inj h).symm⟩
  · rename_i hr
    have hr : s.resetLine = false := by simpa using hr
    split at h
    · simp at h
    · exact .inr (.inl ⟨hr, (Host.Outcome.next.inj h).symm⟩)
    · rename_i i s₂ hf
      exact .inr (.inr ⟨hr, i, s₂, hf, h⟩)

end Sys2Proof.Machine
end

