-- ==== Sys2Proof/Laws/Exec.lean ====
section
/-!
SUPPORT. Everything one step of an operation can do when it answers a next state, said once: an operation of one step
ends with a result, RD32 and WR32 make their bus transaction, and PROBE, READ_TIME and SET_TIME start or go on.
-/

namespace Sys2Proof.Machine

/-- The operations that only end with a result: the codec's and the three checks (R21). -/
def resultOnly : Instr → Bool
  | .bin2bcd _ => true
  | .bcd2bin _ => true
  | .encodeTime _ => true
  | .encodeDate _ => true
  | .encode _ => true
  | .decodeTime _ => true
  | .decodeDate _ => true
  | .decode _ _ => true
  | .rd32 _ => false
  | .wr32 _ _ => false
  | .modeCheck _ => true
  | .livenessCheck _ _ => true
  | .epochCheck _ => true
  | .probe => false
  | .readTime => false
  | .setTime _ => false

/-- A checked encode answers a next state only where the check finds nothing. -/
theorem checked_next {f : Option Field} {m : Mnemonic} {u t : State}
    (h : (match f with | some e => Host.Outcome.fault (Fault.outOfContract m e) | none => .next u : Out) = .next t) :
    t = u := by
  cases f with
  | some e => cases h
  | none => cases h; rfl

/-- The codec's operations and the checks only append a result (R21). -/
theorem exec_resultOnly (i : Instr) (s t : State) (hi : resultOnly i = true) (h : exec i s = .next t) :
    s.progress = .idle ∧ ∃ r, t = finish r s := by
  cases i with
  | rd32 _ => cases hi
  | wr32 _ _ => cases hi
  | probe => cases hi
  | readTime => cases hi
  | setTime _ => cases hi
  | bin2bcd v =>
    obtain ⟨hp, h⟩ := whenIdle_next _ _ _ h
    split at h
    · exact ⟨hp, _, (Host.Outcome.next.inj h).symm⟩
    · cases h
  | encodeTime c => obtain ⟨hp, h⟩ := whenIdle_next _ _ _ h; exact ⟨hp, _, checked_next h⟩
  | encodeDate c => obtain ⟨hp, h⟩ := whenIdle_next _ _ _ h; exact ⟨hp, _, checked_next h⟩
  | encode c => obtain ⟨hp, h⟩ := whenIdle_next _ _ _ h; exact ⟨hp, _, checked_next h⟩
  | bcd2bin b => obtain ⟨hp, h⟩ := whenIdle_next _ _ _ h; exact ⟨hp, _, (Host.Outcome.next.inj h).symm⟩
  | decodeTime tw => obtain ⟨hp, h⟩ := whenIdle_next _ _ _ h; exact ⟨hp, _, (Host.Outcome.next.inj h).symm⟩
  | decodeDate dw => obtain ⟨hp, h⟩ := whenIdle_next _ _ _ h; exact ⟨hp, _, (Host.Outcome.next.inj h).symm⟩
  | decode tw dw => obtain ⟨hp, h⟩ := whenIdle_next _ _ _ h; exact ⟨hp, _, (Host.Outcome.next.inj h).symm⟩
  | modeCheck tw => obtain ⟨hp, h⟩ := whenIdle_next _ _ _ h; exact ⟨hp, _, (Host.Outcome.next.inj h).symm⟩
  | livenessCheck r1 r2 => obtain ⟨hp, h⟩ := whenIdle_next _ _ _ h; exact ⟨hp, _, (Host.Outcome.next.inj h).symm⟩
  | epochCheck dw => obtain ⟨hp, h⟩ := whenIdle_next _ _ _ h; exact ⟨hp, _, (Host.Outcome.next.inj h).symm⟩

/-- RD32 is one bus read (R150). -/
theorem exec_rd32 (w : Reg) (s t : State) (h : exec (.rd32 w) s = .next t) :
    s.progress = .idle ∧ t = afterRead Config.params w s := by
  obtain ⟨hp, h⟩ := whenIdle_next _ _ _ h
  exact ⟨hp, (Host.Outcome.next.inj h).symm⟩

/-- WR32 is one bus write (R152). -/
theorem exec_wr32 (w : Reg) (v : Word) (s t : State) (h : exec (.wr32 w v) s = .next t) :
    s.progress = .idle ∧ t = afterWrite w v s := by
  obtain ⟨hp, h⟩ := whenIdle_next _ _ _ h
  exact ⟨hp, (Host.Outcome.next.inj h).symm⟩

/-- PROBE starts in phase UNINIT or goes on from its position (R185). -/
theorem probeStep_cases (p : Params) (s t : State) (h : probeStep p s = .next t) :
    (s.progress = .idle ∧ s.phase = .uninit ∧ t = probeStart p s) ∨
    ∃ pos, s.progress = .probe pos ∧ t = probeResume p pos s := by
  unfold probeStep at h
  split at h
  · rename_i hp
    split at h
    · rename_i hu
      exact .inl ⟨hp, by simpa [uninitialised] using hu, (Host.Outcome.next.inj h).symm⟩
    · cases h
  · rename_i pos hp
    exact .inr ⟨pos, hp, (Host.Outcome.next.inj h).symm⟩
  · cases h
  · cases h

/-- READ_TIME starts or goes on from its position (R201). -/
theorem readTimeStep_cases (p : Params) (s t : State) (h : readTimeStep p s = .next t) :
    (s.progress = .idle ∧ t = readTimeStart p s) ∨
    ∃ pos, s.progress = .readTime pos ∧ t = readTimeResume p pos s := by
  unfold readTimeStep at h
  split at h
  · rename_i hp
    exact .inl ⟨hp, (Host.Outcome.next.inj h).symm⟩
  · rename_i pos hp
    exact .inr ⟨pos, hp, (Host.Outcome.next.inj h).symm⟩
  · cases h
  · cases h

/-- SET_TIME answers NoDevice, or writes TIME, or goes on from its position (R205). -/
theorem execSetTime_cases (c : CalendarTime) (s t : State) (h : execSetTime c s = .next t) :
    (s.progress = .idle ∧ s.phase ≠ .ready ∧ t = finish (.err .noDevice) s) ∨
    (s.progress = .idle ∧ s.phase = .ready ∧ InContract c ∧
      t = suspend (.setTime c (.timeWritten (dateWord c))) (afterWrite .time (timeWord c) s)) ∨
    ∃ pos, s.progress = .setTime c pos ∧ t = setTimeResume c pos s := by
  unfold execSetTime at h
  split at h
  · rename_i hp
    unfold setTimeStart at h
    split at h
    · rename_i hr
      have hr : s.phase = .ready := by simpa [adapterReady] using hr
      split at h
      · cases h
      · rename_i hb
        exact .inr (.inl ⟨hp, hr, (badField_none c).1 hb, (Host.Outcome.next.inj h).symm⟩)
    · rename_i hr
      exact .inl ⟨hp, by simpa [adapterReady] using hr, (Host.Outcome.next.inj h).symm⟩
  · rename_i c' pos hp
    split at h
    · rename_i hc
      exact .inr (.inr ⟨pos, hc ▸ hp, (Host.Outcome.next.inj h).symm⟩)
    · cases h
  · cases h
  · cases h

/-- Everything one step of an operation can do when it answers a next state. -/
theorem exec_cases (i : Instr) (s t : State) (h : exec i s = .next t) :
    (resultOnly i = true ∧ s.progress = .idle ∧ ∃ r, t = finish r s) ∨
    (∃ w, i = .rd32 w ∧ s.progress = .idle ∧ t = afterRead Config.params w s) ∨
    (∃ w v, i = .wr32 w v ∧ s.progress = .idle ∧ t = afterWrite w v s) ∨
    (i = .probe ∧ probeStep Config.params s = .next t) ∨
    (i = .readTime ∧ readTimeStep Config.params s = .next t) ∨
    ∃ c, i = .setTime c ∧ execSetTime c s = .next t := by
  by_cases hi : resultOnly i = true
  · exact .inl ⟨hi, exec_resultOnly i s t hi h⟩
  · refine .inr ?_
    cases i with
    | rd32 w => exact .inl ⟨w, rfl, exec_rd32 w s t h⟩
    | wr32 w v => exact .inr (.inl ⟨w, v, rfl, exec_wr32 w v s t h⟩)
    | probe => exact .inr (.inr (.inl ⟨rfl, h⟩))
    | readTime => exact .inr (.inr (.inr (.inl ⟨rfl, h⟩)))
    | setTime c => exact .inr (.inr (.inr (.inr ⟨c, rfl, h⟩)))
    | _ => exact absurd rfl hi

end Sys2Proof.Machine
end

