-- ==== Sys2Proof/Laws/Packing.lean ====
section
/-!
SUPPORT. What the field conversions and the packing of the two words do, once each: the conversions as arithmetic, a
field of a word as arithmetic, the bits and the value of a word placed together from bytes, and the fields of the words
that an in-contract record encodes to.
-/

namespace Sys2Proof.Machine

/-! ### The conversions as arithmetic -/

/-- BIN2BCD's formula on 0..99: the byte's value, its nibbles, and what BCD2BIN makes of it. -/
theorem bcdByte_spec (v : Nat) (h : v ≤ 99) :
    (bcdByte v).toNat = v / 10 * 16 + v % 10 ∧ (bcdByte v >>> 4).toNat = v / 10 ∧
    (bcdByte v &&& 0x0F).toNat = v % 10 ∧ validBcd (bcdByte v) = true ∧ bcd2bin (bcdByte v) = v := by
  have all : ∀ x : Fin 100, (bcdByte x).toNat = x / 10 * 16 + x % 10 ∧ (bcdByte x >>> 4).toNat = x / 10 ∧
    (bcdByte x &&& 0x0F).toNat = x % 10 ∧ validBcd (bcdByte x) = true ∧ bcd2bin (bcdByte x) = x := by decide
  exact all ⟨v, by omega⟩

/-- BCD2BIN's formula on every byte, as arithmetic on the byte's value. -/
theorem bcd2bin_toNat (b : Byte) : bcd2bin b = b.toNat / 16 * 10 + b.toNat % 16 := by
  have h4 : (b >>> 4).toNat = b.toNat / 16 := by simp [BitVec.toNat_ushiftRight, Nat.shiftRight_eq_div_pow]
  have h0 : (b &&& 0x0F).toNat = b.toNat % 16 := Nat.and_two_pow_sub_one_eq_mod b.toNat 4
  rw [bcd2bin, h4, h0]

/-- A byte is valid BCD exactly where both digits of its value are decimal. -/
theorem validBcd_iff (b : Byte) : validBcd b = true ↔ b.toNat / 16 ≤ 9 ∧ b.toNat % 16 ≤ 9 := by
  have h4 : (b >>> 4).toNat = b.toNat / 16 := by simp [BitVec.toNat_ushiftRight, Nat.shiftRight_eq_div_pow]
  have h0 : (b &&& 0x0F).toNat = b.toNat % 16 := Nat.and_two_pow_sub_one_eq_mod b.toNat 4
  simp only [validBcd, h4, h0, Bool.and_eq_true, decide_eq_true_eq]

/-- On a valid BCD byte BIN2BCD undoes BCD2BIN (R106). -/
theorem bcdByte_bcd2bin (b : Byte) (h : validBcd b = true) : bcdByte (bcd2bin b) = b := by
  obtain ⟨h1, h2⟩ := (validBcd_iff b).1 h
  have h3 := bcd2bin_toNat b
  apply BitVec.eq_of_toNat_eq
  rw [(bcdByte_spec _ (by omega)).1]
  omega

/-! ### Fields and masks -/

/-- A field of at most eight bits, as arithmetic (R73). -/
theorem field_toNat (o n : Nat) (w : Word) (h : n ≤ 8) : (field o n w).toNat = w.toNat / 2 ^ o % 2 ^ n := by
  have h8 : 2 ^ n ≤ 2 ^ 8 := Nat.pow_le_pow_right (by decide) h
  simp only [field, BitVec.toNat_setWidth, BitVec.extractLsb'_toNat, Nat.shiftRight_eq_div_pow]
  exact Nat.mod_eq_of_lt (lt_of_lt_of_le (Nat.mod_lt _ (by positivity)) h8)

/-- A byte below `2^n` has no bit set from `n` on. -/
theorem byte_high_bit (n : Nat) (b : Byte) (h : b.toNat < 2 ^ n) (i : Nat) (hi : n ≤ i) : b.getLsbD i = false := by
  rw [← BitVec.testBit_toNat]
  exact Nat.testBit_lt_two_pow (lt_of_lt_of_le h (Nat.pow_le_pow_right (by decide) hi))

/-- Two words agree under a mask where they agree in each of its bits. -/
theorem and_mask_congr (v w m : Word) (h : ∀ i < 32, m.getLsbD i = true → v.getLsbD i = w.getLsbD i) :
    v &&& m = w &&& m := by
  apply BitVec.eq_of_getLsbD_eq
  intro i hi
  have hb := h i hi
  rw [BitVec.getLsbD_and, BitVec.getLsbD_and]
  cases hm : m.getLsbD i <;> simp_all

/-- A word is zero under a mask where each of its bits is clear. -/
theorem and_mask_zero (w m : Word) (h : ∀ i < 32, m.getLsbD i = true → w.getLsbD i = false) : w &&& m = 0 := by
  have e := and_mask_congr w 0 m (fun i hi hm => by simpa using h i hi hm)
  exact e.trans BitVec.zero_and

/-- Two words that agree under a mask agree in each of its bits. -/
theorem mask_bit (v w m : Word) (h : v &&& m = w &&& m) (i : Nat) (hi : m.getLsbD i = true) :
    v.getLsbD i = w.getLsbD i := by
  have hb := congrArg (fun u => BitVec.getLsbD u i) h
  simpa [BitVec.getLsbD_and, hi] using hb

/-- Two words that agree under a mask that holds a field have the same field. -/
theorem field_of_masked_eq (o n : Nat) (m v w : Word) (h : v &&& m = w &&& m)
    (hm : ∀ i < n, m.getLsbD (o + i) = true) : field o n v = field o n w := by
  apply BitVec.eq_of_getLsbD_eq
  intro i _
  simp only [field, BitVec.getLsbD_setWidth, BitVec.getLsbD_extractLsb']
  by_cases hn : i < n
  · rw [mask_bit _ _ _ h _ (hm i hn)]
  · simp [hn]

/-! ### A word placed together from bytes -/

/-- Each bit of a word placed together from four bytes is a bit of one of them. -/
theorem placed_bit (a b c d : Byte) (i : Nat) :
    (place 0 a ||| place 8 b ||| place 16 c ||| place 24 d).getLsbD i =
      if i < 8 then a.getLsbD i else if i < 16 then b.getLsbD (i - 8)
      else if i < 24 then c.getLsbD (i - 16) else d.getLsbD (i - 24) := by
  by_cases hi : i < 32
  · simp only [place, BitVec.getLsbD_or, BitVec.getLsbD_shiftLeft, BitVec.getLsbD_setWidth]
    interval_cases i <;> simp
  · rw [BitVec.getLsbD_of_ge _ _ (by omega), if_neg (by omega), if_neg (by omega), if_neg (by omega),
      BitVec.getLsbD_of_ge _ _ (by omega)]

/-- A word placed together from four bytes is their concatenation. -/
theorem placed_eq_append (a b c d : Byte) : place 0 a ||| place 8 b ||| place 16 c ||| place 24 d = d ++ c ++ b ++ a := by
  apply BitVec.eq_of_getLsbD_eq
  intro i hi
  rw [placed_bit]
  simp only [BitVec.getLsbD_append]
  interval_cases i <;> simp

/-- The value of a word placed together from four bytes. -/
theorem placed_toNat (a b c d : Byte) : (place 0 a ||| place 8 b ||| place 16 c ||| place 24 d).toNat =
    a.toNat + b.toNat * 256 + c.toNat * 65536 + d.toNat * 16777216 := by
  rw [placed_eq_append]
  have ha := a.isLt
  have hb := b.isLt
  have hc := c.isLt
  simp only [BitVec.toNat_append]
  rw [← Nat.shiftLeft_add_eq_or_of_lt (by omega), ← Nat.shiftLeft_add_eq_or_of_lt (by omega),
    ← Nat.shiftLeft_add_eq_or_of_lt (by omega)]
  simp only [Nat.shiftLeft_eq]
  omega

/-- A word placed together from three bytes is one from four whose highest is zero. -/
theorem placed_three (a b c : Byte) :
    place 0 a ||| place 8 b ||| place 16 c = place 0 a ||| place 8 b ||| place 16 c ||| place 24 0 := by
  have h0 : place 24 0 = (0 : Word) := by decide
  rw [h0]
  exact BitVec.or_zero.symm

/-! ### The words of an in-contract record -/

/-- The value of the TIME word of an in-contract record, with the bounds of its four bytes (R75). -/
theorem timeWord_spec (t : CalendarTime) (h : InContractTime t) :
    (timeWord t).toNat = (bcdByte t.second.toNat).toNat + (bcdByte t.minute.toNat).toNat * 256 +
      (bcdByte t.hour.toNat).toNat * 65536 + (bcdByte t.weekday.toNat).toNat * 16777216 ∧
    (bcdByte t.second.toNat).toNat < 2 ^ 7 ∧ (bcdByte t.minute.toNat).toNat < 2 ^ 7 ∧
    (bcdByte t.hour.toNat).toNat < 2 ^ 6 ∧ (bcdByte t.weekday.toNat).toNat < 2 ^ 3 := by
  obtain ⟨hs, hm, hh, hw⟩ := h
  have s1 := (bcdByte_spec t.second.toNat (by omega)).1
  have m1 := (bcdByte_spec t.minute.toNat (by omega)).1
  have h1 := (bcdByte_spec t.hour.toNat (by omega)).1
  have w1 := (bcdByte_spec t.weekday.toNat (by omega)).1
  refine ⟨placed_toNat _ _ _ _, ?_, ?_, ?_, ?_⟩ <;> omega

/-- The four fields of the TIME word of an in-contract record are the BCD bytes of its fields (R120). -/
theorem timeWord_fields (t : CalendarTime) (h : InContractTime t) :
    field 0 7 (timeWord t) = bcdByte t.second.toNat ∧ field 8 7 (timeWord t) = bcdByte t.minute.toNat ∧
    field 16 6 (timeWord t) = bcdByte t.hour.toNat ∧ field 24 3 (timeWord t) = bcdByte t.weekday.toNat := by
  obtain ⟨e, h1, h2, h3, h4⟩ := timeWord_spec t h
  refine ⟨?_, ?_, ?_, ?_⟩ <;> apply BitVec.eq_of_toNat_eq <;> rw [field_toNat _ _ _ (by decide), e] <;> omega

/-- The TIME word of an in-contract record has its unused bits and bit 22 zero (R121). -/
theorem timeWord_clear (t : CalendarTime) (h : InContractTime t) : timeWord t &&& 0xF8C08080 = 0 := by
  obtain ⟨-, h1, h2, h3, h4⟩ := timeWord_spec t h
  have b1 := byte_high_bit _ _ h1
  have b2 := byte_high_bit _ _ h2
  have b3 := byte_high_bit _ _ h3
  have b4 := byte_high_bit _ _ h4
  apply and_mask_zero
  intro i hi hm
  rw [timeWord, placed_bit]
  clear h1 h2 h3 h4
  interval_cases i <;>
    first
    | exact absurd hm (by decide)
    | simp (disch := decide) only [b1, b2, b3, b4, Nat.reduceLT, if_true, if_false, Nat.reduceSub]

/-- The value of the DATE word of an in-contract record, with the bounds of its three bytes (R75). -/
theorem dateWord_spec (t : CalendarTime) (h : InContractDate t) :
    (dateWord t).toNat = (bcdByte t.mday.toNat).toNat + (bcdByte (t.month + 1).toNat).toNat * 256 +
      (bcdByte (t.year % 100).toNat).toNat * 65536 ∧
    (bcdByte t.mday.toNat).toNat < 2 ^ 6 ∧ (bcdByte (t.month + 1).toNat).toNat < 2 ^ 6 ∧
    (bcdByte (t.year % 100).toNat).toNat < 2 ^ 8 := by
  obtain ⟨hd, hm, hy⟩ := h
  have d1 := (bcdByte_spec t.mday.toNat (by omega)).1
  have m1 := (bcdByte_spec (t.month + 1).toNat (by omega)).1
  have y1 := (bcdByte_spec (t.year % 100).toNat (by omega)).1
  refine ⟨?_, ?_, ?_, ?_⟩
  · rw [dateWord, placed_three, placed_toNat]
    simp
  all_goals omega

/-- The three fields of the DATE word of an in-contract record are the BCD bytes of its fields (R122). -/
theorem dateWord_fields (t : CalendarTime) (h : InContractDate t) :
    field 0 6 (dateWord t) = bcdByte t.mday.toNat ∧ field 8 6 (dateWord t) = bcdByte (t.month + 1).toNat ∧
    field 16 8 (dateWord t) = bcdByte (t.year % 100).toNat := by
  obtain ⟨e, h1, h2, h3⟩ := dateWord_spec t h
  refine ⟨?_, ?_, ?_⟩ <;> apply BitVec.eq_of_toNat_eq <;> rw [field_toNat _ _ _ (by decide), e] <;> omega

/-- The DATE word of an in-contract record has its unused bits zero (R123). -/
theorem dateWord_clear (t : CalendarTime) (h : InContractDate t) : dateWord t &&& 0xFF00C0C0 = 0 := by
  obtain ⟨-, h1, h2, h3⟩ := dateWord_spec t h
  have b1 := byte_high_bit _ _ h1
  have b2 := byte_high_bit _ _ h2
  have b3 := byte_high_bit _ _ h3
  have b4 : ∀ i, (0 : Byte).getLsbD i = false := fun i => BitVec.getLsbD_zero
  apply and_mask_zero
  intro i hi hm
  rw [dateWord, placed_three, placed_bit]
  clear h1 h2 h3
  interval_cases i <;>
    first
    | exact absurd hm (by decide)
    | simp (disch := decide) only [b1, b2, b3, b4, Nat.reduceLT, if_true, if_false, Nat.reduceSub]

end Sys2Proof.Machine
end

