-- ==== Sys2Proof/Laws/PerInstr.lean ====
section
/-!
SUPPORT. The family of statements made for each instruction as syntax: its encoding decodes to it (spec/30_encoding.md
R81, R83). One lemma for each constructor.
-/

namespace Sys2Proof.Laws.Encoding

/-- The encoding of `i` is matched by the row of `i`'s mnemonic, carries operands of that row's kinds, and decodes to
`i`. -/
def Statement (i : Instr) : Prop :=
  (∃ row, lookupRow (encodeInstr i).code = some row ∧ row.mnemonic = i.mnemonic ∧
    operandsFit row.kinds (encodeInstr i).args = true) ∧
  decodeRequest (encodeInstr i) = .ok i

/-- The row of a code settles the statement of the operation encoded with it. -/
theorem of_row {i : Instr} {c : Byte} {args : List Operand} (row : OpcodeRow) (he : encodeInstr i = ⟨c, args⟩)
    (hl : lookupRow c = some row) (hm : row.mnemonic = i.mnemonic) (hf : operandsFit row.kinds args = true)
    (hb : buildInstr row.mnemonic c args = some i) : Statement i := by
  refine ⟨⟨row, ?_, hm, ?_⟩, ?_⟩ <;> rw [he]
  · exact hl
  · exact hf
  · exact decodeRequest_of_row hl hb

theorem bin2bcd (v : Int) : Statement (.bin2bcd v) := of_row _ rfl rfl rfl rfl rfl
theorem bcd2bin (b : Byte) : Statement (.bcd2bin b) := of_row _ rfl rfl rfl rfl rfl
theorem encodeTime (t : CalendarTime) : Statement (.encodeTime t) := of_row _ rfl rfl rfl rfl rfl
theorem encodeDate (t : CalendarTime) : Statement (.encodeDate t) := of_row _ rfl rfl rfl rfl rfl
theorem encode (t : CalendarTime) : Statement (.encode t) := of_row _ rfl rfl rfl rfl rfl
theorem decodeTime (tw : Word) : Statement (.decodeTime tw) := of_row _ rfl rfl rfl rfl rfl
theorem decodeDate (dw : Word) : Statement (.decodeDate dw) := of_row _ rfl rfl rfl rfl rfl
theorem decode (tw dw : Word) : Statement (.decode tw dw) := of_row _ rfl rfl rfl rfl rfl
theorem rd32 (w : Reg) : Statement (.rd32 w) := by cases w <;> exact of_row _ rfl rfl rfl rfl rfl
theorem wr32 (w : Reg) (v : Word) : Statement (.wr32 w v) := by cases w <;> exact of_row _ rfl rfl rfl rfl rfl
theorem modeCheck (tw : Word) : Statement (.modeCheck tw) := of_row _ rfl rfl rfl rfl rfl
theorem livenessCheck (r1 r2 : Word) : Statement (.livenessCheck r1 r2) := of_row _ rfl rfl rfl rfl rfl
theorem epochCheck (dw : Word) : Statement (.epochCheck dw) := of_row _ rfl rfl rfl rfl rfl
theorem probe : Statement .probe := of_row _ rfl rfl rfl rfl rfl
theorem readTime : Statement .readTime := of_row _ rfl rfl rfl rfl rfl
theorem setTime (t : CalendarTime) : Statement (.setTime t) := of_row _ rfl rfl rfl rfl rfl

end Sys2Proof.Laws.Encoding
end

