-- ==== Sys2Proof/Laws/Run.lean ====
section
/-!
SUPPORT. The Clock Guard's checks in literals, one step of PROBE at the two positions that branch, and a whole
operation made of its steps: what one step does to the run, and what READ_TIME and SET_TIME end in, once each.
-/

namespace Sys2Proof.Machine

/-- MODE_CHECK tests bit 22 (R170). -/
theorem modeCheck_eq (tw : Word) :
    modeCheck tw = if tw.getLsbD 22 then some .unsupportedMode else none := rfl

/-- LIVENESS_CHECK compares both words with the sentinel (R173). -/
theorem livenessCheck_eq (r1 r2 : Word) :
    livenessCheck r1 r2 = if r1 = 0x01000000 ∧ r2 = 0x01000000 then some .notTicking else none := rfl

/-- EPOCH_CHECK compares the decoded year byte with 38 (R178). -/
theorem epochCheck_eq (dw : Word) :
    epochCheck dw = if 38 ≤ bcd2bin (field 16 8 dw) then some 0x00130101 else none := rfl

/-- PROBE after its first liveness read (R185). -/
theorem probeResume_liveRead (p : Params) (s : State) (r1 : Word) :
    probeResume p (.liveRead r1) s =
      if r1 = 0x01000000 then suspend (.probe (.waited r1)) (emit .wait s) else probeRead p .date .dateRead s := rfl

/-- PROBE after its confirming read (R185). -/
theorem probeResume_confirmed (p : Params) (s : State) (r1 r2 : Word) :
    probeResume p (.confirmed r1 r2) s =
      if r1 = 0x01000000 ∧ r2 = 0x01000000 then failProbe .notTicking s else probeRead p .date .dateRead s := by
  simp only [probeResume, livenessCheck_eq]
  split <;> simp_all

/-- A step that leaves the operation in progress is followed by the rest of it. -/
theorem runOp_more {f : State → Out} {between : State → State} (k : Nat) {s t : State} (h : f s = .next t)
    (hi : t.progress ≠ .idle) : runOp f between (k + 1) s = runOp f between k (between t) := by
  simp [runOp, h, hi]

/-- A step that ends the operation ends the run. -/
theorem runOp_done {f : State → Out} {between : State → State} (k : Nat) {s t : State} (h : f s = .next t)
    (hi : t.progress = .idle) : runOp f between (k + 1) s = .next t := by
  simp [runOp, h, hi]

/-- READ_TIME in phase READY, as a whole (R201). -/
theorem runOp_readTime (p : Params) (between : State → State) (hb : ∀ s, (between s).progress = s.progress) (s : State)
    (hp : s.progress = .idle) (hr : s.phase = .ready) :
    runOp (readTimeStep p) between 3 s = .next (match p.readOrder with
      | .timeFirst =>
        let tw := readValue p .time s
        let s₁ := between (suspend (.readTime (.gotTime tw)) (afterRead p .time s))
        let dw := readValue p .date s₁
        finish (decodeResult p tw dw) (between (suspend (.readTime (.gotBoth tw dw)) (afterRead p .date s₁)))
      | .dateFirst =>
        let dw := readValue p .date s
        let s₁ := between (suspend (.readTime (.gotDate dw)) (afterRead p .date s))
        let tw := readValue p .time s₁
        finish (decodeResult p tw dw) (between (suspend (.readTime (.gotBoth tw dw)) (afterRead p .time s₁)))) := by
  have ha : adapterReady s = true := by simp [adapterReady, hr]
  cases ho : p.readOrder <;> simp [runOp, readTimeStep, hp, readTimeStart, ha, ho, hb, readTimeResume]

/-- An in-contract SET_TIME in phase READY, as a whole (R205). -/
theorem runOp_setTime (c : CalendarTime) (between : State → State) (hb : ∀ s, (between s).progress = s.progress)
    (s : State) (hc : InContract c) (hp : s.progress = .idle) (hr : s.phase = .ready) :
    runOp (execSetTime c) between 3 s = .next (
      let s₁ := between (suspend (.setTime c (.timeWritten (dateWord c))) (afterWrite .time (timeWord c) s))
      finish .success (between (suspend (.setTime c .dateWritten) (afterWrite .date (dateWord c) s₁)))) := by
  have ha : adapterReady s = true := by simp [adapterReady, hr]
  have hn := (badField_none c).2 hc
  simp [runOp, execSetTime, hp, setTimeStart, ha, hn, hb, setTimeResume]

/-- The TIME word of an in-contract record has contract bits only (R121). -/
theorem timeWord_masked (c : CalendarTime) (hc : InContractTime c) : timeWord c &&& contractMask .time = timeWord c := by
  apply masked_eq_self
  have e : unusedMask .time = 0xF8C08080 &&& 0xF8808080 := by decide
  rw [e, ← BitVec.and_assoc, timeWord_clear c hc]
  exact BitVec.zero_and

/-- The DATE word of an in-contract record has contract bits only (R123). -/
theorem dateWord_masked (c : CalendarTime) (hc : InContractDate c) : dateWord c &&& contractMask .date = dateWord c :=
  masked_eq_self .date _ (dateWord_clear c hc)

/-- An RTC step leaves the operation in progress as allowed as it was. -/
theorem rtcTick_progressOk (p : Params) (s : State) (h : ProgressOk s) : ProgressOk (rtcTick p s) := by
  exact h

end Sys2Proof.Machine
end

