-- ==== Sys2Proof/Tests/Slice0.lean ====
section
/-!
SUPPORT. Tests of the model, each about one step or one decoding, with the expected values of spec/95_test_vectors.md
or written out from the operation code map; and a witness for each statement that has hypotheses.
-/

namespace Sys2Proof.Tests

open Sys2Proof.Machine

/-! ### Helpers -/

/-- The next state, where there is one. -/
def nextOf (o : Out) : Option State :=
  match o with
  | .next t => some t
  | .fault _ => none
  | .refused _ => none

/-- The last event of the next state's trace. -/
def lastEvent (o : Out) : Option Event :=
  (nextOf o).bind fun t => t.trace.getLast?

/-- The fault, where there is one. -/
def faultOf (o : Out) : Option Fault :=
  match o with
  | .next _ => none
  | .fault f => some f
  | .refused _ => none

/-- The refusal, where there is one. -/
def refusalOf (o : Out) : Option Refusal :=
  match o with
  | .next _ => none
  | .fault _ => none
  | .refused r => some r

/-- The operation a request decodes to. -/
def decoded (r : Request) : Option Instr :=
  match decodeRequest r with
  | .ok i => some i
  | .error _ => none

/-- The defaults of spec/95_test_vectors.md: no RTC step, draws 0, every record plausible, TIME read first. -/
def quiet : Params where
  rtcBase := 0x1000
  regionOk := true
  isValid := fun _ => true
  readOrder := .timeFirst
  livenessDelay := 1
  rtcMove := fun _ q => q
  unusedDraw := fun _ => 0

/-- The worked example of the source: 12:45:30, weekday 3, 15 June 2023 (X2). -/
def june : CalendarTime := ⟨30, 45, 12, 3, 15, 5, 123⟩

/-- The least record in contract, and the greatest whose year comes back. -/
def lowest : CalendarTime := ⟨0, 0, 0, 0, 1, 0, 0⟩
def highest : CalendarTime := ⟨59, 59, 23, 6, 31, 11, 199⟩

/-- A state in a phase and at a position, holding the words of the worked example. -/
def at_ (ph : Phase) (pr : Progress) : State where
  time := 0x03124530
  date := 0x00230615
  phase := ph
  trace := []
  progress := pr
  program := []
  level := .component
  resetLine := false
  draws := 0
  moves := 0

/-- Nothing in progress, phase READY. -/
def idle : State := at_ .ready .idle

/-! ### Decoding (spec/30_encoding.md R81 to R84) -/

theorem test_decode_bcd : decoded ⟨0b00000001, [.int 59]⟩ = some (.bin2bcd 59) ∧
    decoded ⟨0b00000010, [.byte 0x59]⟩ = some (.bcd2bin 0x59) := by decide
theorem test_decode_encode_time : decoded ⟨0b00010000, [.cal june]⟩ = some (.encodeTime june) := by decide
theorem test_decode_encode_date : decoded ⟨0b00010001, [.cal june]⟩ = some (.encodeDate june) := by decide
theorem test_decode_encode : decoded ⟨0b00010010, [.cal june]⟩ = some (.encode june) := by decide
theorem test_decode_decode_time : decoded ⟨0b00011000, [.word 7]⟩ = some (.decodeTime 7) := by decide
theorem test_decode_decode_date : decoded ⟨0b00011001, [.word 7]⟩ = some (.decodeDate 7) := by decide
theorem test_decode_decode : decoded ⟨0b00011010, [.word 7, .word 9]⟩ = some (.decode 7 9) := by decide
theorem test_decode_rd32 : decoded ⟨0b00100000, []⟩ = some (.rd32 .time) ∧
    decoded ⟨0b00100001, []⟩ = some (.rd32 .date) := by decide
theorem test_decode_wr32 : decoded ⟨0b00101000, [.word 7]⟩ = some (.wr32 .time 7) ∧
    decoded ⟨0b00101001, [.word 7]⟩ = some (.wr32 .date 7) := by decide
theorem test_decode_mode_check : decoded ⟨0b00110000, [.word 7]⟩ = some (.modeCheck 7) := by decide
theorem test_decode_liveness_check : decoded ⟨0b00110001, [.word 7, .word 9]⟩ = some (.livenessCheck 7 9) := by decide
theorem test_decode_epoch_check : decoded ⟨0b00110010, [.word 7]⟩ = some (.epochCheck 7) := by decide
theorem test_decode_probe : decoded ⟨0b00111000, []⟩ = some .probe := by decide
theorem test_decode_read_time : decoded ⟨0b01000000, []⟩ = some .readTime := by decide
theorem test_decode_set_time : decoded ⟨0b01000001, [.cal june]⟩ = some (.setTime june) := by decide

/-- The neighbours of the assigned codes are refused (R84). -/
theorem test_decode_unassigned : decoded ⟨0x00, []⟩ = none ∧ decoded ⟨0x03, []⟩ = none ∧ decoded ⟨0x13, []⟩ = none ∧
    decoded ⟨0x1B, []⟩ = none ∧ decoded ⟨0x22, []⟩ = none ∧ decoded ⟨0x2A, []⟩ = none ∧ decoded ⟨0x33, []⟩ = none ∧
    decoded ⟨0x39, []⟩ = none ∧ decoded ⟨0x42, []⟩ = none ∧ decoded ⟨0xFF, []⟩ = none := by decide

/-- The table's word for WR32 of DATE, with an operand of zero. -/
theorem test_table_word : decodeTableWord 8 0x29 = some (.wr32 .date 0) ∧ decodeTableWord 8 0x03 = none ∧
    decodeTableWord 16 0x29 = none := by decide

/-! ### Well-formed requests (R83) -/

theorem test_fit_refuses_wrong_kind : operandsFit [.word] [.byte 0] = false := by decide
theorem test_fit_refuses_missing : operandsFit [.word, .word] [.word 0] = false := by decide
theorem test_fit_refuses_extra : operandsFit [] [.word 0] = false := by decide
theorem test_fit_accepts : operandsFit [.word, .word] [.word 0, .word 1] = true := by decide

/-- Ill-formed requests decode to nothing: a wrong kind, a missing operand, one too many. -/
theorem test_ill_formed_requests : decoded ⟨0x01, [.word 5]⟩ = none ∧ decoded ⟨0x02, [.int 5]⟩ = none ∧
    decoded ⟨0x1A, [.word 5]⟩ = none ∧ decoded ⟨0x38, [.word 5]⟩ = none ∧ decoded ⟨0x28, []⟩ = none ∧
    decoded ⟨0x41, [.int 5]⟩ = none := by decide

/-! ### The assembler syntax (R87, R88) -/

theorem test_asm_probe : assemble "probe\nread_time ; 0x40" = some [.probe, .readTime] := by decide
theorem test_asm_pseudo : assemble "wr.date 0x00130101" = some [.wr32 .date 0x00130101] := by decide

/-! ### BCD field conversions (95_test_vectors.md L2) -/

theorem test_bin2bcd_59 : lastEvent (exec (.bin2bcd 59) idle) = some (.result (.byte 0x59)) := by decide
theorem test_bin2bcd_100 : faultOf (exec (.bin2bcd 100) idle) = some (.outOfContract .bin2bcd .value) := by decide
theorem test_bcd2bin_99 : lastEvent (exec (.bcd2bin 0x99) idle) = some (.result (.integer 99)) := by decide
theorem test_bcd2bin_invalid : lastEvent (exec (.bcd2bin 0xFF) idle) = some (.result (.integer 165)) := by decide

/-! ### Register packing (95_test_vectors.md L2) -/

theorem test_encode_time : lastEvent (exec (.encodeTime june) idle) = some (.result (.word 0x03124530)) := by decide
theorem test_encode_time_ignores_date :
    lastEvent (exec (.encodeTime ⟨7, 8, 9, 4, 0, 12, -1⟩) idle) = some (.result (.word 0x04090807)) := by decide
theorem test_encode_date : lastEvent (exec (.encodeDate june) idle) = some (.result (.word 0x00230615)) := by decide
theorem test_encode_date_folds :
    lastEvent (exec (.encodeDate ⟨0, 0, 0, 0, 1, 0, 200⟩) idle) = some (.result (.word 0x00000101)) := by decide
theorem test_encode : lastEvent (exec (.encode highest) idle) = some (.result (.words 0x06235959 0x00991231)) := by
  decide
theorem test_encode_day_zero :
    faultOf (exec (.encode ⟨0, 0, 0, 0, 0, 0, 100⟩) idle) = some (.outOfContract .encode .mday) := by decide
theorem test_decode_time_invalid :
    lastEvent (exec (.decodeTime 0x0A5A5A5A) idle) = some (.result (.timeFields 60 60 20 2)) := by decide
theorem test_decode_time_unused :
    lastEvent (exec (.decodeTime 0xF8FFFFFF) idle) = some (.result (.timeFields 85 85 45 0)) := by decide
theorem test_decode_date_month : lastEvent (exec (.decodeDate 0) idle) = some (.result (.dateFields 0 (-1) 100)) := by
  decide
theorem test_decode_date_largest :
    lastEvent (exec (.decodeDate 0xFFFFFFFF) idle) = some (.result (.dateFields 45 44 265)) := by decide
theorem test_decode_accepted :
    lastEvent (decodeStep quiet 0x03124530 0x00230615 idle) = some (.result (.calendar june)) := by decide
theorem test_decode_rejected :
    lastEvent (decodeStep { quiet with isValid := fun _ => false } 0x03124530 0x00230615 idle) =
      some (.result (.err .implausibleDate)) := by decide

/-! ### Register access (95_test_vectors.md L2) -/

theorem test_rd32_draw : lastEvent (readStep { quiet with unusedDraw := fun _ => 0xFFFFFFFF } .time idle) =
    some (.read .time 0xFB92C5B0) := by decide
theorem test_rd32_date : lastEvent (readStep quiet .date idle) = some (.read .date 0x00230615) := by decide
theorem test_wr32_date : (nextOf (exec (.wr32 .date 0x00130101) idle)).map (fun t => (t.time, t.date)) =
    some (0x03124530, 0x00130101) := by decide
theorem test_wr32_unused : (nextOf (exec (.wr32 .time 0xFFFFFFFF) idle)).map (fun t => (t.time, t.date)) =
    some (0x077F7F7F, 0x00230615) := by decide

/-! ### Clock Guard (95_test_vectors.md L2) -/

theorem test_mode_check_set :
    lastEvent (exec (.modeCheck 0x00400000) idle) = some (.result (.err .unsupportedMode)) := by decide
theorem test_mode_check_clear : lastEvent (exec (.modeCheck 0xFFBFFFFF) idle) = some (.result .ok) := by decide
theorem test_liveness_check_stopped :
    lastEvent (exec (.livenessCheck 0x01000000 0x01000000) idle) = some (.result (.err .notTicking)) := by decide
theorem test_liveness_check_unused_bit :
    lastEvent (exec (.livenessCheck 0x81000000 0x81000000) idle) = some (.result .ok) := by decide
theorem test_epoch_check_repair :
    lastEvent (exec (.epochCheck 0x003A0000) idle) = some (.result (.repair 0x00130101)) := by decide
theorem test_epoch_check_year_only : lastEvent (exec (.epochCheck 0xFF37FFFF) idle) = some (.result .noRepair) := by
  decide

/-- P1's fourth step: the repair write, with TIME left alone. -/
theorem test_probe_repairs : (nextOf (probeStep quiet (at_ .uninit (.probe (.dateRead 0x00450101))))).map
    (fun t => (t.time, t.date, t.trace)) = some (0x03124530, 0x00130101, [.write .date 0x00130101]) := by decide

/-- P4's second step: twelve-hour mode fails, with no further access. -/
theorem test_probe_rejects_mode : (nextOf (probeStep quiet (at_ .uninit (.probe (.modeRead 0x00521500))))).map
    (fun t => (t.phase, t.trace)) =
      some (.failed .unsupportedMode, [.result (.failed .unsupportedMode)]) := by decide

/-! ### Device Adapter (95_test_vectors.md L2, L3) -/

/-- P5's last step: the torn record. -/
theorem test_read_time_torn : lastEvent (readTimeStep quiet (at_ .ready (.readTime (.gotBoth 0x06235959 0x00010101)))) =
    some (.result (.calendar ⟨59, 59, 23, 6, 1, 0, 101⟩)) := by decide
theorem test_read_time_no_device :
    lastEvent (exec .readTime (at_ .uninit .idle)) = some (.result (.err .noDevice)) := by decide

/-- P6: TIME is written, DATE is not yet. -/
theorem test_set_time_torn : (nextOf (exec (.setTime june) { idle with time := 0, date := 0x00240101 })).map
    (fun t => (t.time, t.date, t.trace)) = some (0x03124530, 0x00240101, [.write .time 0x03124530]) := by decide

/-- P7: an out-of-contract record faults before any write. -/
theorem test_set_time_out_of_contract : faultOf (exec (.setTime ⟨60, 0, 0, 0, 1, 0, 100⟩) idle) =
    some (.outOfContract .setTime .second) := by decide

/-! ### The step -/

/-- A placed operation is the first one run after reset. -/
theorem test_first_step : (nextOf (step (State.reset.withFetchWord 8 0x40))).map (fun t => (t.trace, t.progress)) =
    some ([.result (.err .noDevice)], .idle) := by decide
theorem test_step_illegal : refusalOf (step { idle with program := [⟨0x03, []⟩] }) = some (.illegalOperation 0x03) := by
  decide
theorem test_step_not_admitted :
    refusalOf (step { idle with program := [⟨0x20, []⟩], level := .host }) = some (.notAdmitted .rd32) := by decide
theorem test_step_ill_formed :
    refusalOf (step { idle with program := [⟨0x28, [.int 3]⟩] }) = some (.badOperands .wr32) := by decide

/-! ### Witnesses: what the statements assume is met -/

theorem witness_DecodeEncodeAgree : decodeRequest ⟨0x29, [.word 5]⟩ = .ok (.wr32 .date 5) := by rfl

theorem witness_UnassignedCodesRefused :
    (0x00 : Byte) ∉ ([0x01, 0x02, 0x10, 0x11, 0x12, 0x18, 0x19, 0x1A, 0x20, 0x21, 0x28, 0x29, 0x30, 0x31, 0x32, 0x38,
      0x40, 0x41] : List Byte) ∧
    (0xFF : Byte) ∉ ([0x01, 0x02, 0x10, 0x11, 0x12, 0x18, 0x19, 0x1A, 0x20, 0x21, 0x28, 0x29, 0x30, 0x31, 0x32, 0x38,
      0x40, 0x41] : List Byte) ∧
    (0x41 : Byte) ∈ ([0x01, 0x02, 0x10, 0x11, 0x12, 0x18, 0x19, 0x1A, 0x20, 0x21, 0x28, 0x29, 0x30, 0x31, 0x32, 0x38,
      0x40, 0x41] : List Byte) ∧
    idle.progress = .idle ∧ idle.resetLine = false ∧
    ({ idle with program := [⟨0x00, []⟩] } : State).program = ⟨0x00, []⟩ :: [] := by decide

theorem witness_FieldsShiftAndMask : (8 : Nat) ≤ 8 ∧ (24 : Nat) ≤ 24 := by decide

/-- At component level any operation, at host level SET_TIME. -/
theorem witness_StepRunsIssuedOperation :
    let s : State := { idle with program := [⟨0x20, []⟩] }
    let h : State := { idle with program := [⟨0x41, [.cal june]⟩], level := .host }
    (s.resetLine = false ∧ s.progress = .idle ∧ s.program = ⟨0x20, []⟩ :: [] ∧
      decodeRequest ⟨0x20, []⟩ = .ok (.rd32 .time) ∧ s.level = .component) ∧
    h.resetLine = false ∧ h.progress = .idle ∧ h.program = ⟨0x41, [.cal june]⟩ :: [] ∧
      decodeRequest ⟨0x41, [.cal june]⟩ = .ok (.setTime june) ∧ (Instr.setTime june).mnemonic = .setTime :=
  ⟨⟨rfl, rfl, rfl, rfl, rfl⟩, rfl, rfl, rfl, rfl, rfl⟩

/-- Each of the three operations in progress. -/
theorem witness_StepContinuesOperation :
    (at_ .uninit (.probe (.waited 0x01000000))).progress = .probe (.waited 0x01000000) ∧
    (at_ .ready (.readTime (.gotTime 5))).progress = .readTime (.gotTime 5) ∧
    (at_ .ready (.setTime june .dateWritten)).progress = .setTime june .dateWritten ∧
    (at_ .uninit (.probe (.waited 0x01000000))).resetLine = false := by decide

theorem witness_HostLevelRefusesComponentOperations :
    let s : State := { idle with program := [encodeInstr (.wr32 .date 5)], level := .host }
    s.resetLine = false ∧ s.progress = .idle ∧ s.level = .host ∧ s.program = encodeInstr (.wr32 .date 5) :: [] ∧
      (Instr.wr32 .date 5).mnemonic ≠ .probe ∧ (Instr.wr32 .date 5).mnemonic ≠ .readTime ∧
      (Instr.wr32 .date 5).mnemonic ≠ .setTime := by decide

theorem witness_EndOfRunOnlyCounterMoves : EndOfRun idle := by decide

theorem witness_ResetKeepsTimeAndDate : ({ idle with resetLine := true } : State).resetLine = true := by decide

/-- The invariant holds with each operation in progress, and a step from there goes on. -/
theorem witness_StepKeepsInvariant :
    (Inv idle ∧ ∃ t, step idle = .next t) ∧
    (Inv (at_ .uninit (.probe (.confirmed 0x01000000 7))) ∧
      ∃ t, step (at_ .uninit (.probe (.confirmed 0x01000000 7))) = .next t) ∧
    (Inv (at_ .ready (.readTime (.gotDate 7))) ∧ ∃ t, step (at_ .ready (.readTime (.gotDate 7))) = .next t) ∧
    (Inv (at_ .ready (.setTime june (.timeWritten (dateWord june)))) ∧
      ∃ t, step (at_ .ready (.setTime june (.timeWritten (dateWord june)))) = .next t) :=
  ⟨⟨⟨by decide, trivial⟩, _, rfl⟩, ⟨⟨by decide, rfl, rfl⟩, _, rfl⟩, ⟨⟨by decide, rfl⟩, _, rfl⟩,
    ⟨⟨by decide, rfl, by decide, rfl⟩, _, rfl⟩⟩

/-- Both ends of BIN2BCD's range and the values just outside. -/
theorem witness_Bin2bcdGivesBcdByte : idle.progress = .idle ∧ ((0 : Int) ≤ 0 ∧ (0 : Int) ≤ 99) ∧
    ((0 : Int) ≤ 99 ∧ (99 : Int) ≤ 99) ∧ ((-1 : Int) < 0 ∨ 99 < (-1 : Int)) ∧ ((100 : Int) < 0 ∨ 99 < (100 : Int)) := by
  decide

theorem witness_Bin2bcdValidInjectiveMonotone : (99 : Nat) ≤ 99 ∧ bcdByte 99 = bcdByte 99 ∧ (98 : Nat) < 99 := by decide

theorem witness_Bcd2binComputesFormula : idle.progress = .idle := by decide

theorem witness_BcdConversionsInverse : validBcd 0x99 = true ∧ (99 : Nat) ≤ 99 ∧ (0x7F : Byte).toNat ≤ 0x7F ∧
    (0x3F : Byte).toNat ≤ 0x3F ∧ (0x07 : Byte).toNat ≤ 0x07 := by decide

theorem witness_WeekdayBinaryEqualsBcd : (6 : Nat) ≤ 6 := by decide

/-- The ends of the ranges of R27 are in contract, and one step past each is not. -/
theorem witness_InContract : idle.progress = .idle ∧ InContract lowest ∧ InContract highest ∧
    ¬ InContractTime { highest with second := 60 } ∧ ¬ InContractTime { highest with minute := 60 } ∧
    ¬ InContractTime { highest with hour := 24 } ∧ ¬ InContractTime { highest with weekday := 7 } ∧
    ¬ InContractDate { highest with mday := 32 } ∧ ¬ InContractDate { highest with month := 12 } ∧
    ¬ InContractTime { lowest with second := -1 } ∧ ¬ InContractTime { lowest with minute := -1 } ∧
    ¬ InContractTime { lowest with hour := -1 } ∧ ¬ InContractTime { lowest with weekday := -1 } ∧
    ¬ InContractDate { lowest with mday := 0 } ∧ ¬ InContractDate { lowest with month := -1 } ∧
    ¬ InContractDate { lowest with year := -1 } := by
  (repeat' apply And.intro) <;> decide

theorem witness_EncodeTimePacksFields : idle.progress = .idle ∧ InContractTime highest ∧
    ¬ InContractTime { highest with second := 60 } := by decide

theorem witness_EncodeDatePacksFields : idle.progress = .idle ∧ InContractDate highest ∧
    ¬ InContractDate { highest with mday := 32 } := by decide

theorem witness_EncodeGivesBothWords : idle.progress = .idle ∧ InContract highest ∧
    ¬ InContract { highest with hour := 24 } := by decide

/-- Each field as the first one out of range. -/
theorem witness_FaultNamesFirstBadField : idle.progress = .idle ∧ ¬ InContract { lowest with second := 60, year := -1 } ∧
    ¬ InContract { lowest with minute := 60 } ∧ ¬ InContract { lowest with hour := 24 } ∧
    ¬ InContract { lowest with weekday := 7 } ∧ ¬ InContract { lowest with mday := 32 } ∧
    ¬ InContract { lowest with month := 12 } ∧ ¬ InContract { lowest with year := -1 } := by
  (repeat' apply And.intro) <;> decide

theorem witness_EncodedWordsClean : InContractTime highest ∧ InContractDate highest ∧ (0 : Int) ≤ 99 ∧
    (99 : Int) % 100 = highest.year % 100 := by decide

theorem witness_DecodeTimeUnpacksFields : idle.progress = .idle := by decide

theorem witness_DecodeDateUnpacksFields : idle.progress = .idle := by decide

theorem witness_DecodeAsksPlausibility : idle.progress = .idle := by decide

theorem witness_CalendarRoundTrip : idle.progress = .idle ∧ InContract { highest with year := 99 } ∧
    InContract { highest with year := 100 } ∧ InContract highest ∧ highest.year ≤ 199 ∧
    quiet.isValid highest = true ∧ quiet.isValid { highest with year := 100 } = true := by
  (repeat' apply And.intro) <;> decide

/-- The largest words, and the smallest DATE word. -/
theorem witness_WordRoundTrip :
    ((0x06235959 : Word) &&& 0xF8C08080 = 0 ∧ validBcd (field 0 7 0x06235959) = true ∧
      validBcd (field 8 7 0x06235959) = true ∧ validBcd (field 16 6 0x06235959) = true ∧
      bcd2bin (field 0 7 0x06235959) ≤ 59 ∧ bcd2bin (field 8 7 0x06235959) ≤ 59 ∧
      bcd2bin (field 16 6 0x06235959) ≤ 23 ∧ bcd2bin (field 24 3 0x06235959) ≤ 6) ∧
    ((0x00991231 : Word) &&& 0xFF00C0C0 = 0 ∧ validBcd (field 0 6 0x00991231) = true ∧
      validBcd (field 8 6 0x00991231) = true ∧ validBcd (field 16 8 0x00991231) = true ∧
      1 ≤ bcd2bin (field 0 6 0x00991231) ∧ bcd2bin (field 0 6 0x00991231) ≤ 31 ∧
      1 ≤ bcd2bin (field 8 6 0x00991231) ∧ bcd2bin (field 8 6 0x00991231) ≤ 12) ∧
    ((0x00000101 : Word) &&& 0xFF00C0C0 = 0 ∧ validBcd (field 0 6 0x00000101) = true ∧
      validBcd (field 8 6 0x00000101) = true ∧ validBcd (field 16 8 0x00000101) = true ∧
      1 ≤ bcd2bin (field 0 6 0x00000101) ∧ bcd2bin (field 0 6 0x00000101) ≤ 31 ∧
      1 ≤ bcd2bin (field 8 6 0x00000101) ∧ bcd2bin (field 8 6 0x00000101) ≤ 12) := by
  (repeat' apply And.intro) <;> decide

/-- Two records alike in one field only, and two words alike under one field's mask only. -/
theorem witness_FieldsIndependent : InContract june ∧
    InContract { highest with second := 30 } ∧ june.second = ({ highest with second := 30 } : CalendarTime).second ∧
    InContract { highest with minute := 45 } ∧ june.minute = ({ highest with minute := 45 } : CalendarTime).minute ∧
    InContract { highest with hour := 12 } ∧ june.hour = ({ highest with hour := 12 } : CalendarTime).hour ∧
    InContract { highest with weekday := 3 } ∧ june.weekday = ({ highest with weekday := 3 } : CalendarTime).weekday ∧
    InContract { highest with mday := 15 } ∧ june.mday = ({ highest with mday := 15 } : CalendarTime).mday ∧
    InContract { highest with month := 5 } ∧ june.month = ({ highest with month := 5 } : CalendarTime).month ∧
    InContract { highest with year := 123 } ∧ june.year = ({ highest with year := 123 } : CalendarTime).year ∧
    (0xFFFFFF80 : Word) &&& secMask = 0 &&& secMask ∧ (0xFFFF80FF : Word) &&& minMask = 0 &&& minMask ∧
    (0xFFC0FFFF : Word) &&& hourMask = 0 &&& hourMask ∧ (0xF8FFFFFF : Word) &&& wdayMask = 0 &&& wdayMask ∧
    (0xFFFFFFC0 : Word) &&& dayMask = 0 &&& dayMask ∧ (0xFFFFC0FF : Word) &&& monMask = 0 &&& monMask ∧
    (0xFF00FFFF : Word) &&& yearMask = 0 &&& yearMask := by
  (repeat' apply And.intro) <;> decide

/-- Every ignored bit set, and none. -/
theorem witness_DecodeIgnoresUnusedBits : (0xF8C08080 : Word) &&& 0x073F7F7F = 0 &&& 0x073F7F7F ∧
    (0xFF00C0C0 : Word) &&& 0x00FF3F3F = 0 &&& 0x00FF3F3F := by decide

theorem witness_Rd32ReadsLiveRegister : idle.progress = .idle := by decide

theorem witness_Wr32StoresContractBits : idle.progress = .idle := by decide

/-- The value of an address-level read, where there is one. -/
def readOf (a n : Nat) : Option Word :=
  match memRead quiet a n idle with
  | .ok (v, _) => some v
  | .error _ => none

/-- The registers after an address-level write, where it is taken. -/
def writeOf (a n : Nat) : Option (Word × Word) :=
  match memWrite quiet a n 0 idle with
  | .ok t => some (t.time, t.date)
  | .error _ => none

/-- The base, base + 4, the addresses beside them, and other sizes (R51 to R53), read. -/
theorem witness_OnlyWholeRegistersAccessible : readOf 0x1000 4 = some 0x03124530 ∧ readOf 0x1004 4 = some 0x00230615 ∧
    readOf 0x0FFF 4 = none ∧ readOf 0x0FFC 4 = none ∧ readOf 0x1001 4 = none ∧ readOf 0x1003 4 = none ∧
    readOf 0x1005 4 = none ∧ readOf 0x1008 4 = none ∧ readOf 0x1000 1 = none ∧ readOf 0x1000 2 = none ∧
    readOf 0x1000 8 = none ∧ readOf 0x1004 0 = none ∧ readOf 0x1004 2 = none := by decide

/-- The same, written. -/
theorem witness_OnlyWholeRegistersAccessible_write : writeOf 0x1000 4 = some (0, 0x00230615) ∧
    writeOf 0x1004 4 = some (0x03124530, 0) ∧ writeOf 0x0FFF 4 = none ∧ writeOf 0x1001 4 = none ∧
    writeOf 0x1003 4 = none ∧ writeOf 0x1005 4 = none ∧ writeOf 0x1008 4 = none ∧ writeOf 0x1000 2 = none ∧
    writeOf 0x1004 8 = none := by decide

theorem witness_ReadsSeeLastWrite : (∃ t, exec (.rd32 .time) idle = .next t) ∧ (∃ t, exec (.rd32 .date) idle = .next t) ∧
    (∃ t, exec (.wr32 .time 0xFFFFFFFF) idle = .next t) ∧ ∃ t, exec (.wr32 .date 0xFFFFFFFF) idle = .next t :=
  ⟨⟨_, rfl⟩, ⟨_, rfl⟩, ⟨_, rfl⟩, _, rfl⟩

theorem witness_ChecksAnswerAndChangeNothing : idle.progress = .idle := by decide

/-- PROBE refused, PROBE starting, and each of its positions. -/
theorem witness_ProbeFollowsPseudocode :
    (idle.progress = .idle ∧ idle.phase ≠ .uninit) ∧
    ((at_ .uninit .idle).progress = .idle ∧ (at_ .uninit .idle).phase = .uninit) ∧
    (at_ .uninit (.probe (.modeRead 0x00400000))).progress = .probe (.modeRead 0x00400000) ∧
    (at_ .uninit (.probe (.liveRead 0x01000000))).progress = .probe (.liveRead 0x01000000) ∧
    (at_ .uninit (.probe (.waited 0x01000000))).progress = .probe (.waited 0x01000000) ∧
    (at_ .uninit (.probe (.confirmed 0x01000000 0x01000000))).progress =
      .probe (.confirmed 0x01000000 0x01000000) ∧
    (at_ .uninit (.probe (.dateRead 0x00380000))).progress = .probe (.dateRead 0x00380000) ∧
    (at_ .uninit (.probe .repaired)).progress = .probe .repaired ∧
    (at_ .uninit (.probe .logged)).progress = .probe .logged := by
  (repeat' apply And.intro) <;> decide

theorem witness_ProbeEndsInOneOfFourOutcomes : (at_ .uninit .idle).progress = .idle ∧
    (at_ .uninit .idle).phase = .uninit := by decide

/-- A repairing step, and a step that ends PROBE in failure. -/
theorem witness_FailedProbeWritesNothing :
    (∃ t, exec .probe (at_ .uninit (.probe (.dateRead 0x00380000))) = .next t ∧ t.date = 0x00130101) ∧
    ∃ t, exec .probe (at_ .uninit (.probe (.modeRead 0x00400000))) = .next t ∧
      (∃ e, t.phase = .failed e) ∧ (at_ .uninit (.probe (.modeRead 0x00400000))).phase = .uninit :=
  ⟨⟨_, rfl, rfl⟩, _, rfl, ⟨_, rfl⟩, rfl⟩

theorem witness_AdapterAnswersNoDevice : (at_ .uninit .idle).progress = .idle ∧ (at_ .uninit .idle).phase ≠ .ready ∧
    (at_ (.failed .notTicking) .idle).phase ≠ .ready := by decide

theorem witness_ReadTimeFollowsPseudocode :
    ((at_ .uninit .idle).progress = .idle ∧ (at_ .uninit .idle).phase ≠ .ready) ∧
    (idle.progress = .idle ∧ idle.phase = .ready) ∧
    (at_ .ready (.readTime (.gotTime 5))).progress = .readTime (.gotTime 5) ∧
    (at_ .ready (.readTime (.gotDate 5))).progress = .readTime (.gotDate 5) ∧
    (at_ .ready (.readTime (.gotBoth 5 7))).progress = .readTime (.gotBoth 5 7) := by decide

theorem witness_SetTimeFollowsPseudocode :
    ((at_ .uninit .idle).progress = .idle ∧ (at_ .uninit .idle).phase ≠ .ready) ∧
    (idle.progress = .idle ∧ idle.phase = .ready ∧ ¬ InContract { highest with second := 60 } ∧ InContract highest) ∧
    (at_ .ready (.setTime june (.timeWritten 5))).progress = .setTime june (.timeWritten 5) ∧
    (at_ .ready (.setTime june .dateWritten)).progress = .setTime june .dateWritten := by decide

theorem witness_AdapterOperationsEnd : idle.progress = .idle ∧ idle.phase = .ready ∧ InContract highest := by decide

/-- P5's start and the pair the RTC agent moves to. -/
theorem witness_TornReadAdmitted :
    RegsClean { idle with time := 0x06235959, date := 0x00001231 } ∧ idle.progress = .idle ∧ idle.phase = .ready ∧
      (0x00000000 : Word) &&& 0xF8808080 = 0 ∧ (0x00010101 : Word) &&& 0xFF00C0C0 = 0 := by decide

theorem witness_ReadTimeIgnoresUnusedDraws : idle.progress = .idle ∧
    (∃ t, runOp (readTimeStep quiet) (rtcTick quiet) 3 idle = .next t) ∧
    ∃ t, runOp (readTimeStep { quiet with unusedDraw := fun _ => 0xFFFFFFFF })
      (rtcTick { quiet with unusedDraw := fun _ => 0xFFFFFFFF }) 3 idle = .next t :=
  ⟨rfl, ⟨_, rfl⟩, _, rfl⟩

theorem witness_TornWriteReachable :
    let s : State := { idle with program := [encodeInstr (.setTime june)] }
    s.resetLine = false ∧ s.progress = .idle ∧ s.phase = .ready ∧ InContract june ∧
      s.program = encodeInstr (.setTime june) :: [] := by decide

theorem witness_ReadTimeAfterSetTime : InContract { highest with year := 100 } ∧ InContract highest ∧
    100 ≤ ({ highest with year := 100 } : CalendarTime).year ∧ highest.year ≤ 199 ∧ quiet.isValid highest = true ∧
    idle.progress = .idle ∧ idle.phase = .ready := by
  (repeat' apply And.intro) <;> decide

/-- The step that makes the phase READY. -/
theorem witness_PhaseChangesOnlyByProbe :
    (∃ t, exec .probe (at_ .uninit (.probe .logged)) = .next t ∧ t.phase ≠ (at_ .uninit (.probe .logged)).phase) ∧
    (Inv (at_ .uninit (.probe .logged)) ∧ (at_ .uninit (.probe .logged)).resetLine = false ∧
      ∃ t, step (at_ .uninit (.probe .logged)) = .next t ∧ t.phase ≠ (at_ .uninit (.probe .logged)).phase) :=
  ⟨⟨_, rfl, by decide⟩, ⟨by decide, rfl⟩, rfl, _, rfl, by decide⟩

theorem witness_StepAppendsAtMostOneEvent : idle.resetLine = false ∧ ∃ t, step idle = .next t :=
  ⟨rfl, _, rfl⟩

/-- Steps that write TIME, DATE, the phase and the draws, and one that writes nothing but the trace. -/
theorem witness_OperationsFrame :
    (∃ t, exec (.wr32 .time 0) idle = .next t ∧ t.time ≠ idle.time) ∧
    (∃ t, exec (.wr32 .date 0) idle = .next t ∧ t.date ≠ idle.date) ∧
    (∃ t, exec .probe (at_ .uninit (.probe .logged)) = .next t ∧ t.phase ≠ (at_ .uninit (.probe .logged)).phase) ∧
    (∃ t, exec (.rd32 .date) idle = .next t ∧ t.draws ≠ idle.draws) ∧
    ∃ t, exec (.bcd2bin 0x59) idle = .next t :=
  ⟨⟨_, rfl, by decide⟩, ⟨_, rfl, by decide⟩, ⟨_, rfl, by decide⟩, ⟨_, rfl, by decide⟩, _, rfl⟩

theorem witness_NoOperationOverlaps : (at_ .uninit (.probe .logged)).progress ≠ .idle ∧
    currentInstr (at_ .uninit (.probe .logged)).progress ≠ some .readTime := by decide

/-- A narrowed relation that R157 admits: every unsupported pair is open, and from 00:00:00 on 2000-01-01 the agent goes
two seconds on, its first choice with an unused bit set. -/
def narrow (q r : Word × Word) : Prop :=
  rtcSupported q = false ∨ (q = (0, 0x101) ∧ r = (0x81, 0x101)) ∨ (q = (1, 0x101) ∧ r = (2, 0x101))

/-- The state that `narrow` moves from. -/
def midnight : State := { idle with time := 0, date := 0x101 }

/-- Two ticks in one opportunity, and parameters that keep within the relation. -/
theorem witness_RtcStepsWithinRelation : RtcStepAdmitted narrow ∧ RegsClean midnight ∧
    Relation.ReflTransGen (RtcTickTo narrow) (midnight.time, midnight.date) (2, 0x101) ∧ RtcWithin narrow quiet :=
  have ha : RtcStepAdmitted narrow := fun _ _ h => .inl h
  ⟨ha, by decide,
    .tail (.tail .refl ⟨(0x81, 0x101), .inr (.inl ⟨rfl, rfl⟩), by decide⟩) ⟨(2, 0x101), .inr (.inr ⟨rfl, rfl⟩), by decide⟩,
    ha, fun _ q => ⟨q, .refl, rfl⟩⟩

/-- The same relation does narrow: from midnight it does not relate the pair to itself. -/
theorem test_narrow_constrains : ¬ narrow (0, 0x101) (0, 0x101) := by
  unfold narrow
  decide

/-- Registers in twelve-hour mode, and each way a pair is unsupported, at the value past the range. -/
theorem witness_NarrowedRtcLeavesUnsupportedOpen : RtcWithin narrow quiet ∧ RtcStepAdmitted narrow ∧
    RegsClean { idle with time := 0x00521500, date := 0x00130101 } ∧
    rtcSupported (0x00521500, 0x00130101) = false ∧ (0x00521500 : Word).getLsbD 22 = true ∧
    validBcd (field 0 7 0x0000000A) = false ∧ validBcd (field 8 7 0x00000A00) = false ∧
    validBcd (field 16 6 0x000A0000) = false ∧ validBcd (field 0 6 0x0000000A) = false ∧
    validBcd (field 8 6 0x00000A00) = false ∧ validBcd (field 16 8 0x000A0000) = false ∧
    59 < bcd2bin (field 0 7 0x00000060) ∧ 59 < bcd2bin (field 8 7 0x00006000) ∧
    23 < bcd2bin (field 16 6 0x00240000) ∧ 6 < bcd2bin (field 24 3 0x07000000) ∧
    bcd2bin (field 0 6 0x00000100) < 1 ∧ 31 < bcd2bin (field 0 6 0x00000132) ∧
    bcd2bin (field 8 6 0x00000001) < 1 ∧ 12 < bcd2bin (field 8 6 0x00001301) := by
  refine ⟨witness_RtcStepsWithinRelation.2.2.2, witness_RtcStepsWithinRelation.1, ?_⟩
  (repeat' apply And.intro) <;> decide

/-- R157: the 12h-mode flag, hours 0x24 and invalid BCD are left open, the worked example's pair is not. -/
theorem test_rtc_supported : rtcSupported (0x03124530, 0x00230615) = true ∧
    rtcSupported (0x00521500, 0x00130101) = false ∧ rtcSupported (0x00240000, 0x00130101) = false ∧
    rtcSupported (0x03124530, 0x002A0615) = false := by decide

theorem witness_NothingElseStops : idle.progress = .idle := by decide

end Sys2Proof.Tests
end

section
/-!
PROOFS. The block's step (spec/00_scope.md R14): which operation it runs, and that an operation's step appends exactly
one event to the trace.
-/

namespace Sys2Proof.Machine

/-! ### What a step runs -/

/-- The admitted subset holds an operation at component level, and at host level PROBE, READ_TIME and SET_TIME (R85). -/
theorem admitted_iff (l : Level) (m : Mnemonic) :
    admitted l m = true ↔ l = .component ∨ m = .probe ∨ m = .readTime ∨ m = .setTime := by
  cases l with
  | component => simp [admitted]
  | host => cases m <;> simp [admitted]

/-- The operation in progress is gone on with, whatever the host's list holds (R35). -/
theorem fetch_of_current {s : State} {i : Instr} (h : currentInstr s.progress = some i) :
    fetch s = .ok (some (i, s)) := by
  simp [fetch, h]

/-- With nothing in progress, an admitted operation at the head of the host's list is taken from it (R80, R85). -/
theorem fetch_of_head {s : State} {r : Request} {rest : List Request} {i : Instr} (hp : s.progress = .idle)
    (hl : s.program = r :: rest) (hd : decodeRequest r = .ok i) (ha : admitted s.level i.mnemonic = true) :
    fetch s = .ok (some (i, { s with program := rest })) := by
  simp [fetch, issue, currentInstr, hp, hl, hd, ha]

/-- Without reset, a step is one step of the operation that is fetched after the RTC agent's opportunity. -/
theorem step_of_fetch {s s₂ : State} {i : Instr} (hr : s.resetLine = false)
    (hf : fetch (rtcTick Config.params s) = .ok (some (i, s₂))) : step s = exec i s₂ := by
  simp [step, hr, hf]

/-- Without reset, a step goes on with the operation that the position in progress belongs to (R35). -/
theorem step_of_progress {s : State} {q : Progress} {i : Instr} (hr : s.resetLine = false) (hp : s.progress = q)
    (hq : currentInstr q = some i) : step s = exec i (rtcTick Config.params s) :=
  step_of_fetch hr (fetch_of_current (by rw [rtcTick_progress, hp, hq]))

/-! ### What a step appends to the trace -/

/-- A fetch leaves the trace alone. -/
theorem fetch_trace {s t : State} {i : Instr} (h : fetch s = .ok (some (i, t))) : t.trace = s.trace := by
  obtain ⟨-, rfl⟩ | ⟨-, _, _, -, -, -, rfl⟩ := fetch_cases s i t h <;> rfl

@[simp] theorem probeRead_trace (p : Params) (w : Reg) (pos : Word → ProbePos) (s : State) :
    (probeRead p w pos s).trace = s.trace ++ [.read w (readValue p w s)] := rfl

/-- The first step of PROBE appends its read, or the result of a failed region acquisition (R185). -/
theorem probeStart_appends_one (p : Params) (s : State) : ∃ e, (probeStart p s).trace = s.trace ++ [e] := by
  unfold probeStart
  split
  · exact ⟨_, probeRead_trace ..⟩
  · exact ⟨_, failProbe_trace ..⟩

/-- Every later step of PROBE appends the one event of its line (R185). -/
theorem probeResume_appends_one (p : Params) (pos : ProbePos) (s : State) :
    ∃ e, (probeResume p pos s).trace = s.trace ++ [e] := by
  cases pos with
  | modeRead r0 =>
    cases h : modeCheck r0 with
    | none => simp [probeResume, h]
    | some _ => simp [probeResume, h]
  | liveRead r1 =>
    by_cases h : r1 = sentinel
    · simp [probeResume, h]
    · simp [probeResume, h]
  | waited r1 => exact ⟨_, probeRead_trace ..⟩
  | confirmed r1 r2 =>
    cases h : livenessCheck r1 r2 with
    | none => simp [probeResume, h]
    | some _ => simp [probeResume, h]
  | dateRead d =>
    cases h : epochCheck d with
    | none => simp [probeResume, h]
    | some v => simp [probeResume, h]
  | repaired => exact ⟨_, emit_trace ..⟩
  | logged => exact ⟨_, readyProbe_trace s⟩

/-- The first step of READ_TIME appends its first read, or the NoDevice result (R201). -/
theorem readTimeStart_appends_one (p : Params) (s : State) : ∃ e, (readTimeStart p s).trace = s.trace ++ [e] := by
  unfold readTimeStart
  split
  · split
    · exact ⟨_, afterRead_trace ..⟩
    · exact ⟨_, afterRead_trace ..⟩
  · exact ⟨_, finish_trace ..⟩

/-- Every later step of READ_TIME appends the other read or the result (R201). -/
theorem readTimeResume_appends_one (p : Params) (pos : ReadPos) (s : State) :
    ∃ e, (readTimeResume p pos s).trace = s.trace ++ [e] := by
  cases pos with
  | gotTime tw => exact ⟨_, afterRead_trace ..⟩
  | gotDate dw => exact ⟨_, afterRead_trace ..⟩
  | gotBoth tw dw => exact ⟨_, finish_trace ..⟩

/-- Every later step of SET_TIME appends the DATE write or the result (R205). -/
theorem setTimeResume_appends_one (c : CalendarTime) (pos : SetPos) (s : State) :
    ∃ e, (setTimeResume c pos s).trace = s.trace ++ [e] := by
  cases pos with
  | timeWritten dw => exact ⟨_, afterWrite_trace ..⟩
  | dateWritten => exact ⟨_, finish_trace ..⟩

/-- One step of an operation appends exactly one event: a bus access, the wait, a notice or a result (R14, R32). -/
theorem exec_appends_one {i : Instr} {s t : State} (h : exec i s = .next t) : ∃ e, t.trace = s.trace ++ [e] := by
  obtain ⟨-, -, r, rfl⟩ | ⟨w, -, -, rfl⟩ | ⟨w, v, -, -, rfl⟩ | ⟨-, h⟩ | ⟨-, h⟩ | ⟨c, -, h⟩ := exec_cases i s t h
  · exact ⟨_, finish_trace r s⟩
  · exact ⟨_, afterRead_trace _ w s⟩
  · exact ⟨_, afterWrite_trace w v s⟩
  · obtain ⟨-, -, rfl⟩ | ⟨pos, -, rfl⟩ := probeStep_cases _ s t h
    · exact probeStart_appends_one _ s
    · exact probeResume_appends_one _ pos s
  · obtain ⟨-, rfl⟩ | ⟨pos, -, rfl⟩ := readTimeStep_cases _ s t h
    · exact readTimeStart_appends_one _ s
    · exact readTimeResume_appends_one _ pos s
  · obtain ⟨-, -, rfl⟩ | ⟨-, -, -, rfl⟩ | ⟨pos, -, rfl⟩ := execSetTime_cases c s t h
    · exact ⟨_, finish_trace _ s⟩
    · exact ⟨_, afterWrite_trace .time _ s⟩
    · exact setTimeResume_appends_one c pos s

/-! ### The statements -/

/-- Settles O55: without reset a step is the RTC agent alone, which appends nothing, or one step of an operation, which
appends exactly one event. -/
theorem stepAppendsAtMostOneEvent : Obligations.StepAppendsAtMostOneEvent := by
  intro s t hr h
  obtain ⟨hreset, -⟩ | ⟨-, rfl⟩ | ⟨-, i, s₂, hf, hx⟩ := step_cases s t h
  · simp [hr] at hreset
  · exact ⟨[], by simp, by simp⟩
  · obtain ⟨e, he⟩ := exec_appends_one hx
    exact ⟨[e], by rw [he, fetch_trace hf, rtcTick_trace], by simp⟩

/-- Settles O7: the RTC agent's opportunity leaves the list, the position and the level alone, so the head is what is
fetched after it. -/
theorem stepRunsIssuedOperation : Obligations.StepRunsIssuedOperation := by
  intro s r rest i hr hp hl hd ha
  exact step_of_fetch hr (fetch_of_head hp hl hd ((admitted_iff _ _).2 ha))

/-- Settles O8: the position in progress says which operation is fetched. -/
theorem stepContinuesOperation : Obligations.StepContinuesOperation := by
  intro s hr
  exact ⟨fun _ hp => step_of_progress hr hp rfl, fun _ hp => step_of_progress hr hp rfl,
    fun _ _ hp => step_of_progress hr hp rfl⟩

end Sys2Proof.Machine
end

section
/-!
PROOFS. The state (spec/10_state.md): what it is right after reset (R36), what each operation leaves unchanged (R21),
which steps change the phase (R31), and that what the unused bits of a read hold does not reach READ_TIME (R24, R76).
-/

namespace Sys2Proof.Machine

/-! ### After reset -/

/-- The registers hold contract bits only right after reset, whatever the power-on draw is (R36). -/
theorem reset_regsClean : RegsClean State.reset :=
  ⟨masked_clean .time _, masked_clean .date _⟩

/-! ### What the operations of several steps can write -/

/-- What one step of PROBE can do to the state (R185): a bus read, the wait or the notice, the repair write, or the end
in failure or in success. -/
inductive ProbeEffect (p : Params) (s : State) : State → Prop
  | read (w : Reg) (pos : Word → ProbePos) : ProbeEffect p s (probeRead p w pos s)
  | event (e : Event) (pos : ProbePos) : ProbeEffect p s (suspend (.probe pos) (emit e s))
  | repair (v : Word) (pos : ProbePos) : ProbeEffect p s (suspend (.probe pos) (afterWrite .date v s))
  | fail (e : FailReason) : ProbeEffect p s (failProbe e s)
  | ready : ProbeEffect p s (readyProbe s)

/-- The first step of PROBE reads, or fails where the region is unavailable. -/
theorem probeStart_effect (p : Params) (s : State) : ProbeEffect p s (probeStart p s) := by
  unfold probeStart
  split
  · exact .read ..
  · exact .fail _

/-- A later step of PROBE, position by position. -/
theorem probeResume_effect (p : Params) (pos : ProbePos) (s : State) : ProbeEffect p s (probeResume p pos s) := by
  cases pos with
  | modeRead r0 =>
    simp only [probeResume]
    split
    · exact .fail _
    · exact .read ..
  | liveRead r1 =>
    simp only [probeResume]
    split
    · exact .event ..
    · exact .read ..
  | waited r1 => exact .read ..
  | confirmed r1 r2 =>
    simp only [probeResume]
    split
    · exact .fail _
    · exact .read ..
  | dateRead d =>
    simp only [probeResume]
    split
    · exact .repair ..
    · exact .ready
  | repaired => exact .event ..
  | logged => exact .ready

/-- Every step of PROBE has one of these effects. -/
theorem probeStep_effect {p : Params} {s t : State} (h : probeStep p s = .next t) : ProbeEffect p s t := by
  obtain ⟨-, -, rfl⟩ | ⟨pos, -, rfl⟩ := probeStep_cases p s t h
  · exact probeStart_effect p s
  · exact probeResume_effect p pos s

/-- One step of PROBE writes DATE, the phase, the trace, the position and the draws at most (R185). -/
theorem probeStep_frame {p : Params} {s t : State} (h : probeStep p s = .next t) : ∃ date phase trace progress draws,
    t = { s with date, phase, trace, progress, draws } := by
  cases probeStep_effect h <;> exact ⟨_, _, _, _, _, rfl⟩

/-- One step of READ_TIME writes the trace, the position and the draws at most (R201). -/
theorem readTimeStep_frame {p : Params} {s t : State} (h : readTimeStep p s = .next t) : ∃ trace progress draws,
    t = { s with trace, progress, draws } := by
  obtain ⟨-, rfl⟩ | ⟨pos, -, rfl⟩ := readTimeStep_cases p s t h
  · unfold readTimeStart
    split
    · split <;> exact ⟨_, _, _, rfl⟩
    · exact ⟨_, _, _, rfl⟩
  · cases pos <;> exact ⟨_, _, _, rfl⟩

/-- One step of SET_TIME writes TIME, DATE, the trace and the position at most (R205). -/
theorem execSetTime_frame {c : CalendarTime} {s t : State} (h : execSetTime c s = .next t) :
    ∃ time date trace progress, t = { s with time, date, trace, progress } := by
  obtain ⟨-, -, rfl⟩ | ⟨-, -, -, rfl⟩ | ⟨pos, -, rfl⟩ := execSetTime_cases c s t h
  · exact ⟨_, _, _, _, rfl⟩
  · exact ⟨_, _, _, _, rfl⟩
  · cases pos <;> exact ⟨_, _, _, _, rfl⟩

/-! ### The phase -/

/-- PROBE is in progress only in phase UNINIT (R31). -/
theorem phase_uninit_of_probe {s : State} {pos : ProbePos} (h : ProgressOk s) (hp : s.progress = .probe pos) :
    s.phase = .uninit := by
  unfold ProgressOk at h
  rw [hp] at h
  cases pos with
  | waited _ => exact h.1
  | confirmed _ _ => exact h.1
  | _ => exact h

/-- One step of PROBE keeps the phase, or ends PROBE in READY or FAILED (R185). -/
theorem probeStep_phase {p : Params} {s t : State} (h : probeStep p s = .next t) :
    t.phase = s.phase ∨ t.phase = .ready ∨ ∃ e, t.phase = .failed e := by
  cases probeStep_effect h with
  | read w pos => exact .inl rfl
  | event e pos => exact .inl rfl
  | repair v pos => exact .inl rfl
  | fail e => exact .inr (.inr ⟨e, rfl⟩)
  | ready => exact .inr (.inl rfl)

/-- PROBE takes a step only in phase UNINIT, where the operation in progress is one that the phase allows (R185). -/
theorem probeStep_from_uninit {p : Params} {s t : State} (hs : ProgressOk s) (h : probeStep p s = .next t) :
    s.phase = .uninit := by
  obtain ⟨-, hu, -⟩ | ⟨pos, hp, -⟩ := probeStep_cases p s t h
  · exact hu
  · exact phase_uninit_of_probe hs hp

/-- A fetch takes a request from the host's list at most. -/
theorem fetch_frame {s t : State} {i : Instr} (h : fetch s = .ok (some (i, t))) : ∃ program, t = { s with program } := by
  obtain ⟨-, rfl⟩ | ⟨-, _, _, -, -, -, rfl⟩ := fetch_cases s i t h <;> exact ⟨_, rfl⟩

/-! ### What a read's unused bits do not reach -/

/-- DECODE's record is that of the contract bits of the two words: the unused bits are not decoded (R76). -/
theorem decodedTime_congr {tw tw' dw dw' : Word} (ht : tw &&& contractMask .time = tw' &&& contractMask .time)
    (hd : dw &&& contractMask .date = dw' &&& contractMask .date) : decodedTime tw dw = decodedTime tw' dw' := by
  simp only [decodedTime, decSecond, decMinute, decHour, decWeekday, decMday, decMonth, decYear, fieldValue,
    field_of_masked_eq 0 7 _ _ _ ht (by decide), field_of_masked_eq 8 7 _ _ _ ht (by decide),
    field_of_masked_eq 16 6 _ _ _ ht (by decide), field_of_masked_eq 24 3 _ _ _ ht (by decide),
    field_of_masked_eq 0 6 _ _ _ hd (by decide), field_of_masked_eq 8 6 _ _ _ hd (by decide),
    field_of_masked_eq 16 8 _ _ _ hd (by decide)]

/-- DECODE's answer is that of the contract bits of the two words, and takes only IS_VALID from the parameters (R131). -/
theorem decodeResult_congr {p p' : Params} {tw tw' dw dw' : Word} (hv : p.isValid = p'.isValid)
    (ht : tw &&& contractMask .time = tw' &&& contractMask .time)
    (hd : dw &&& contractMask .date = dw' &&& contractMask .date) :
    decodeResult p tw dw = decodeResult p' tw' dw' := by
  rw [decodeResult, decodeResult, hv, decodedTime_congr ht hd]

/-- Two READ_TIMEs that end with words of the same contract bits give the same answer (R201). -/
theorem readTime_answer_congr {p p' : Params} {tw tw' dw dw' : Word} {s s' : State} (hv : p.isValid = p'.isValid)
    (ht : tw &&& contractMask .time = tw' &&& contractMask .time)
    (hd : dw &&& contractMask .date = dw' &&& contractMask .date) :
    (finish (decodeResult p tw dw) s).trace.getLast? = (finish (decodeResult p' tw' dw') s').trace.getLast? := by
  rw [finish_trace, finish_trace, List.getLast?_concat, List.getLast?_concat, decodeResult_congr hv ht hd]

/-- Two reads of a register with the same content agree in their contract bits, whatever the draws (R150). -/
theorem readValue_contract_congr {p p' : Params} {w : Reg} {s s' : State} (h : reg w s = reg w s') :
    readValue p w s &&& contractMask w = readValue p' w s' &&& contractMask w := by
  rw [readValue_contract, readValue_contract, h]

/-- READ_TIME outside phase READY, as a whole (R200). -/
theorem runOp_readTime_notReady (p : Params) (between : State → State) (k : Nat) {s : State} (hp : s.progress = .idle)
    (hr : s.phase ≠ .ready) : runOp (readTimeStep p) between (k + 1) s = .next (finish (.err .noDevice) s) :=
  runOp_done k (by simp [readTimeStep, hp, readTimeStart, adapterReady, hr]) rfl

/-! ### The statements -/

/-- Settles O13: the fields of the reset state, with the contract masks in literals. -/
theorem stateAfterReset : Obligations.StateAfterReset :=
  ⟨rfl, rfl, rfl, rfl⟩

/-- Settles O14: the registers are clean and nothing is in progress. -/
theorem resetMeetsInvariant : Obligations.ResetMeetsInvariant :=
  ⟨reset_regsClean, trivial⟩

/-- Settles O56: each case of an operation's step, with the fields it can write. -/
theorem operationsFrame : Obligations.OperationsFrame := by
  intro i s t h
  obtain ⟨-, hp, r, rfl⟩ | ⟨w, rfl, -, rfl⟩ | ⟨w, v, rfl, -, rfl⟩ | ⟨rfl, h⟩ | ⟨rfl, h⟩ | ⟨c, rfl, h⟩ :=
    exec_cases i s t h
  · simp [finish_of_idle r s hp]
  · simp [Instr.mnemonic]
  · cases w <;> simp [afterWrite, Instr.mnemonic]
  · obtain ⟨_, _, _, _, _, rfl⟩ := probeStep_frame h
    simp [Instr.mnemonic]
  · obtain ⟨_, _, _, rfl⟩ := readTimeStep_frame h
    simp [Instr.mnemonic]
  · obtain ⟨_, _, _, _, rfl⟩ := execSetTime_frame h
    simp [Instr.mnemonic]

/-- An operation that changes the phase is PROBE (R31). -/
theorem eq_probe_of_phase_ne {i : Instr} {s t : State} (h : exec i s = .next t) (hne : t.phase ≠ s.phase) :
    i = .probe := by
  obtain ⟨-, -, -, -, -, -, hphase, -⟩ := operationsFrame i s t h
  exact hphase hne

/-- Settles O54: a step that changes the phase is a step of PROBE, which the invariant allows only in phase UNINIT. -/
theorem phaseChangesOnlyByProbe : Obligations.PhaseChangesOnlyByProbe := by
  refine ⟨fun _ _ _ => eq_probe_of_phase_ne, fun s t ⟨_, hs⟩ hr h hne => ?_⟩
  obtain ⟨hreset, -⟩ | ⟨-, rfl⟩ | ⟨-, i, s₂, hf, hx⟩ := step_cases s t h
  · simp [hr] at hreset
  · exact absurd (rtcTick_phase _ s) hne
  · obtain ⟨program, rfl⟩ := fetch_frame hf
    obtain rfl := eq_probe_of_phase_ne hx hne
    exact ⟨probeStep_from_uninit (s := { rtcTick Config.params s with program }) hs hx,
      (probeStep_phase hx).resolve_left hne⟩

/-- Settles O50: both runs read the same registers between the same moves of the RTC agent, and DECODE's answer does
not see the unused bits in which the words they read differ. -/
theorem readTimeIgnoresUnusedDraws : Obligations.ReadTimeIgnoresUnusedDraws := by
  intro p f s t t' hp h h'
  by_cases hr : s.phase = .ready
  · rw [runOp_readTime _ _ (rtcTick_progress _) s hp hr, Host.Outcome.next.injEq] at h h'
    subst h h'
    cases p.readOrder with
    | timeFirst =>
      exact ⟨readTime_answer_congr rfl (readValue_contract_congr rfl) (readValue_contract_congr rfl), rfl, rfl, rfl⟩
    | dateFirst =>
      exact ⟨readTime_answer_congr rfl (readValue_contract_congr rfl) (readValue_contract_congr rfl), rfl, rfl, rfl⟩
  · rw [runOp_readTime_notReady _ _ _ hp hr, Host.Outcome.next.injEq] at h h'
    subst h h'
    exact ⟨rfl, rfl, rfl, rfl⟩

end Sys2Proof.Machine
end

section
/-!
PROOFS. The register pair as the machine's memory (spec/20_memory.md R50 to R62): which bus accesses reach a register,
what a read sees after a write, what READ_TIME answers right after SET_TIME, and that no two operations overlap.
-/

namespace Sys2Proof.Machine

/-! ### Accesses by address and size -/

/-- A 4-byte access `d` bytes above the base reaches a register at +0 and +4 only (R51, R52). -/
theorem regAtOffset_word (d : Nat) :
    regAtOffset d 4 = if d = 0 then some .time else if d = 4 then some .date else none := by
  by_cases h0 : d = 0
  · subst h0; rfl
  · by_cases h4 : d = 4
    · subst h4; rfl
    · simp [regAtOffset, h0, h4]

/-- The register that an access by address and size reaches: a whole word at the base, or at the base plus 4 (R51, R52,
R53). -/
theorem regAtAddress_eq (p : Params) (a n : Nat) :
    regAtAddress p a n =
      if n = 4 ∧ a = p.rtcBase then some .time else if n = 4 ∧ a = p.rtcBase + 4 then some .date else none := by
  by_cases hn : n = 4
  · subst hn
    by_cases hb : p.rtcBase ≤ a
    · obtain ⟨d, rfl⟩ := Nat.exists_eq_add_of_le hb
      simp [regAtAddress, regAtOffset_word]
    · have h0 : a ≠ p.rtcBase := by omega
      have h4 : a ≠ p.rtcBase + 4 := by omega
      simp [regAtAddress, hb, h0, h4]
  · simp [regAtAddress, regAtOffset, hn]

/-- Settles O36: a read and a write are taken exactly where the address and the size reach a register. -/
theorem onlyWholeRegistersAccessible : Obligations.OnlyWholeRegistersAccessible := by
  intro p a n v s
  rw [memRead, memWrite, regAtAddress_eq]
  by_cases htime : n = 4 ∧ a = p.rtcBase
  · simp [htime]
  · by_cases hdate : n = 4 ∧ a = p.rtcBase + 4
    · simp [hdate]
    · simp [htime, hdate]

/-! ### Reads and writes -/

/-- A bus read changes no register (R56, D7). -/
@[simp] theorem reg_afterRead (p : Params) (w w' : Reg) (s : State) : reg w' (afterRead p w s) = reg w' s := by
  cases w' <;> rfl

/-- After a bus write the register written holds the contract bits of the value, and the other what it held (R152). -/
theorem reg_afterWrite (w w' : Reg) (v : Word) (s : State) :
    reg w' (afterWrite w v s) = if w' = w then v &&& contractMask w' else reg w' s := by
  cases w <;> cases w' <;> rfl

/-- Settles O35: the contract bits of a read are the register's, which a read keeps and a write replaces. -/
theorem readsSeeLastWrite : Obligations.ReadsSeeLastWrite := by
  constructor
  · intro w w' s t h
    obtain ⟨-, rfl⟩ := exec_rd32 w s t h
    exact ⟨reg_afterRead _ w w' s, fun p => readValue_contract_congr (reg_afterRead _ w w' s)⟩
  · intro w w' v s t h p
    obtain ⟨-, rfl⟩ := exec_wr32 w v s t h
    rw [readValue_contract, readValue_contract, reg_afterWrite]
    split
    · rw [BitVec.and_assoc, BitVec.and_self]
    · rfl

/-! ### READ_TIME after SET_TIME -/

/-- The words of an in-contract record decode to the record, its year taken into 100..199 (R134). -/
theorem decodedTime_encoded {c : CalendarTime} (hc : InContract c) :
    decodedTime (timeWord c) (dateWord c) = { c with year := c.year % 100 + 100 } := by
  obtain ⟨ht, hd⟩ := hc
  obtain ⟨fs, fm, fh, fw⟩ := timeWord_fields c ht
  obtain ⟨fd, fo, fy⟩ := dateWord_fields c hd
  have back : ∀ v : Int, 0 ≤ v → v ≤ 99 → (bcd2bin (bcdByte v.toNat) : Int) = v := by
    intro v h0 h99
    obtain ⟨-, -, -, -, h⟩ := bcdByte_spec v.toNat (by omega)
    omega
  obtain ⟨hs, hm, hh, hw⟩ := ht
  obtain ⟨hd, ho, hy⟩ := hd
  simp only [decodedTime, decSecond, decMinute, decHour, decWeekday, decMday, decMonth, decYear, fieldValue, fs, fm, fh,
    fw, fd, fo, fy]
  rw [back c.second, back c.minute, back c.hour, back c.weekday, back c.mday, back (c.month + 1), back (c.year % 100)]
  · simp
  all_goals omega

/-- DECODE gives back the record that its words were encoded from, where the year is in 100..199 and the plausibility
check accepts it (R134). -/
theorem decodeResult_encoded {p : Params} {c : CalendarTime} (hc : InContract c) (hlo : 100 ≤ c.year)
    (hhi : c.year ≤ 199) (hv : p.isValid c = true) :
    decodeResult p (timeWord c) (dateWord c) = .calendar c := by
  have hy : c.year % 100 + 100 = c.year := by omega
  rw [decodeResult, decodedTime_encoded hc, hy, if_pos hv]

/-- With no RTC step in between, SET_TIME of an in-contract record leaves its two words in the registers (R205). -/
theorem runOp_setTime_alone {c : CalendarTime} {s : State} (hc : InContract c) (hp : s.progress = .idle)
    (hr : s.phase = .ready) : ∃ t, runOp (execSetTime c) id 3 s = .next t ∧ t.progress = .idle ∧ t.phase = .ready ∧
      t.time = timeWord c ∧ t.date = dateWord c :=
  ⟨_, runOp_setTime c id (fun _ => rfl) s hc hp hr, rfl, by simpa using hr, timeWord_masked c hc.1,
    dateWord_masked c hc.2⟩

/-- With no RTC step in between, READ_TIME answers what the registers decode to, in either read order (R201). -/
theorem runOp_readTime_alone (p : Params) {s : State} (hp : s.progress = .idle) (hr : s.phase = .ready) :
    ∃ u, runOp (readTimeStep p) id 3 s = .next u ∧
      u.trace.getLast? = some (.result (decodeResult p s.time s.date)) := by
  refine ⟨_, runOp_readTime p id (fun _ => rfl) s hp hr, ?_⟩
  have answer : some (.result (decodeResult p s.time s.date)) =
      (finish (decodeResult p s.time s.date) s).trace.getLast? := by simp
  rw [answer]
  cases p.readOrder with
  | timeFirst => exact readTime_answer_congr rfl (readValue_contract ..) (readValue_contract ..)
  | dateFirst => exact readTime_answer_congr rfl (readValue_contract ..) (readValue_contract ..)

/-- Settles O52: SET_TIME leaves the record's words in the registers, and READ_TIME decodes them back. -/
theorem readTimeAfterSetTime : Obligations.ReadTimeAfterSetTime := by
  intro p c s hc hlo hhi hv hp hr
  obtain ⟨t, ht, hpt, hrt, htime, hdate⟩ := runOp_setTime_alone hc hp hr
  obtain ⟨u, hu, hlast⟩ := runOp_readTime_alone p hpt hrt
  rw [htime, hdate, decodeResult_encoded hc hlo hhi hv] at hlast
  exact ⟨t, u, ht, hu, hlast⟩

/-! ### No overlap -/

/-- PROBE is refused while another operation is in progress. -/
theorem probeStep_of_other (p : Params) {s : State} (hp : s.progress ≠ .idle)
    (hc : currentInstr s.progress ≠ some .probe) : probeStep p s = .refused .operationInProgress := by
  unfold probeStep
  split <;> simp_all [currentInstr]

/-- READ_TIME is refused while another operation is in progress. -/
theorem readTimeStep_of_other (p : Params) {s : State} (hp : s.progress ≠ .idle)
    (hc : currentInstr s.progress ≠ some .readTime) : readTimeStep p s = .refused .operationInProgress := by
  unfold readTimeStep
  split <;> simp_all [currentInstr]

/-- SET_TIME is refused while another operation is in progress, a SET_TIME of another record among them. -/
theorem execSetTime_of_other {c : CalendarTime} {s : State} (hp : s.progress ≠ .idle)
    (hc : currentInstr s.progress ≠ some (.setTime c)) : execSetTime c s = .refused .operationInProgress := by
  unfold execSetTime
  split <;> simp_all [currentInstr]

/-- Settles O57: the operations of one step start only when idle, and the three of several steps go on only from a
position of their own. -/
theorem noOperationOverlaps : Obligations.NoOperationOverlaps := by
  intro i s hp hc
  cases i with
  | probe => exact probeStep_of_other _ hp hc
  | readTime => exact readTimeStep_of_other _ hp hc
  | setTime c => exact execSetTime_of_other hp hc
  | _ => exact whenIdle_of_busy s _ hp

end Sys2Proof.Machine
end

section
/-!
PROOFS. The encoding of operations (spec/30_encoding.md R73 to R88): the decoder and the encoder undo each other, the
codes that no row assigns, what a step refuses, fields as shifts and masks, and the only ways an operation can stop.
-/

namespace Sys2Proof

/-! ### The rows of the operation code map -/

/-- A code and its row agree where the row's mask looks, so a code that two rows cover makes their patterns agree under
both masks. -/
theorem OpcodeRow.patterns_agree {a b : OpcodeRow} {c : Byte} (ha : a.covers c = true) (hb : b.covers c = true) :
    a.pattern &&& b.mask = b.pattern &&& a.mask := by
  rw [OpcodeRow.covers, decide_eq_true_eq] at ha hb
  rw [← ha, ← hb, BitVec.and_assoc, BitVec.and_assoc, BitVec.and_comm a.mask]

/-- Two rows of the map differ in a bit that both their masks look at (R81). -/
theorem opcodeTable_patterns_differ :
    opcodeTable.Pairwise fun a b => a.pattern &&& b.mask ≠ b.pattern &&& a.mask := by decide

/-- A row is found for a code only if it is of the map and covers the code. -/
theorem lookupRow_some {c : Byte} {row : OpcodeRow} (h : lookupRow c = some row) :
    row ∈ opcodeTable ∧ row.covers c = true :=
  ⟨List.mem_of_find?_eq_some h, List.find?_some (p := fun r => OpcodeRow.covers r c) h⟩

/-- Each operation has one row (R81). -/
theorem row_eq_of_mnemonic_eq {a b : OpcodeRow} (ha : a ∈ opcodeTable) (hb : b ∈ opcodeTable)
    (h : a.mnemonic = b.mnemonic) : a = b := by
  have all : ∀ a ∈ opcodeTable, ∀ b ∈ opcodeTable, a.mnemonic = b.mnemonic → a = b := by decide
  exact all a ha b hb h

/-- A row's mask looks at the whole code, or leaves bit 0 free, which names the register of RD32 and WR32 (R81, R82). -/
theorem mask_cases {row : OpcodeRow} (h : row ∈ opcodeTable) :
    row.mask = 0xFF ∨ row.mask = 0xFE ∧ (row.mnemonic = .rd32 ∨ row.mnemonic = .wr32) := by
  have all : ∀ row ∈ opcodeTable,
      row.mask = 0xFF ∨ row.mask = 0xFE ∧ (row.mnemonic = .rd32 ∨ row.mnemonic = .wr32) := by decide
  exact all row h

/-- A code is its upper seven bits and the index bit of the register it names (R82). -/
theorem code_eq_or_regBit (c : Byte) : (c &&& 0xFE) ||| regBit (regOfCode c) = c := by
  have all : ∀ c : Byte, (c &&& 0xFE) ||| regBit (regOfCode c) = c := by decide
  exact all c

/-- Two codes of one row are the same code where they name the same register, if the row leaves the register free. -/
theorem code_eq_of_row {row : OpcodeRow} {c d : Byte} (hrow : row ∈ opcodeTable) (hc : row.covers c = true)
    (hd : row.covers d = true)
    (hreg : row.mnemonic = .rd32 ∨ row.mnemonic = .wr32 → regOfCode c = regOfCode d) : c = d := by
  rw [OpcodeRow.covers, decide_eq_true_eq] at hc hd
  have h := hc.trans hd.symm
  obtain hm | ⟨hm, hrw⟩ := mask_cases hrow <;> rw [hm] at h
  · have whole (b : Byte) : b &&& 0xFF = b := BitVec.and_allOnes
    rwa [whole, whole] at h
  · rw [← code_eq_or_regBit c, h, hreg hrw, code_eq_or_regBit]

/-- A row whose mask looks at the whole code covers its pattern only. -/
theorem covers_whole (p : Byte) (m : Mnemonic) (ks : List OperandKind) (c : Byte) :
    (⟨p, 0xFF, m, ks⟩ : OpcodeRow).covers c = true ↔ c = p := by
  rw [OpcodeRow.covers, decide_eq_true_eq, show c &&& 0xFF = c from BitVec.and_allOnes]

/-- The rows of RD32 and WR32 cover two codes each, one for each register (R82). -/
theorem covers_register (m : Mnemonic) (ks : List OperandKind) (c : Byte) :
    ((⟨0x20, 0xFE, m, ks⟩ : OpcodeRow).covers c = true ↔ c = 0x20 ∨ c = 0x21) ∧
    ((⟨0x28, 0xFE, m, ks⟩ : OpcodeRow).covers c = true ↔ c = 0x28 ∨ c = 0x29) := by
  have all : ∀ c : Byte,
      (c &&& 0xFE = 0x20 ↔ c = 0x20 ∨ c = 0x21) ∧ (c &&& 0xFE = 0x28 ↔ c = 0x28 ∨ c = 0x29) := by decide
  simpa only [OpcodeRow.covers, decide_eq_true_eq] using all c

/-- The eighteen assigned codes are those that a row covers (R81, R84). -/
theorem lookupRow_eq_none_iff (c : Byte) : lookupRow c = none ↔
    c ∉ ([0x01, 0x02, 0x10, 0x11, 0x12, 0x18, 0x19, 0x1A, 0x20, 0x21, 0x28, 0x29, 0x30, 0x31, 0x32, 0x38, 0x40,
      0x41] : List Byte) := by
  simp only [lookupRow, List.find?_eq_none, opcodeTable, List.cons_append, List.nil_append, List.forall_mem_cons,
    covers_whole, (covers_register _ _ c).1, (covers_register _ _ c).2]
  simp [and_assoc]

/-! ### The decoder and the encoder undo each other -/

/-- The encoding of every operation is matched by the row of its mnemonic and decodes to it (R81, R83). -/
theorem encoding_statement (i : Instr) : Laws.Encoding.Statement i := by
  cases i with
  | bin2bcd v => exact Laws.Encoding.bin2bcd v
  | bcd2bin b => exact Laws.Encoding.bcd2bin b
  | encodeTime t => exact Laws.Encoding.encodeTime t
  | encodeDate t => exact Laws.Encoding.encodeDate t
  | encode t => exact Laws.Encoding.encode t
  | decodeTime tw => exact Laws.Encoding.decodeTime tw
  | decodeDate dw => exact Laws.Encoding.decodeDate dw
  | decode tw dw => exact Laws.Encoding.decode tw dw
  | rd32 w => exact Laws.Encoding.rd32 w
  | wr32 w v => exact Laws.Encoding.wr32 w v
  | modeCheck tw => exact Laws.Encoding.modeCheck tw
  | livenessCheck r1 r2 => exact Laws.Encoding.livenessCheck r1 r2
  | epochCheck dw => exact Laws.Encoding.epochCheck dw
  | probe => exact Laws.Encoding.probe
  | readTime => exact Laws.Encoding.readTime
  | setTime t => exact Laws.Encoding.setTime t

/-- Decoding undoes encoding (R81, R83). -/
theorem decodeRequest_encodeInstr (i : Instr) : decodeRequest (encodeInstr i) = .ok i :=
  (encoding_statement i).2

/-- The operands of an operation that was built are those it was built from. -/
theorem encodeInstr_args_of_buildInstr {m : Mnemonic} {c : Byte} {args : List Operand} {i : Instr}
    (h : buildInstr m c args = some i) : (encodeInstr i).args = args := by
  unfold buildInstr at h
  split at h <;> split at h <;> cases h <;> rfl

/-- The register of RD32 or WR32 that was built from a code is the one the code names (R82). -/
theorem regOfCode_encodeInstr_of_buildInstr {m : Mnemonic} {c : Byte} {args : List Operand} {i : Instr}
    (hm : m = .rd32 ∨ m = .wr32) (h : buildInstr m c args = some i) :
    regOfCode (encodeInstr i).code = regOfCode c := by
  have back : ∀ w : Reg, regOfCode (0x20 ||| regBit w) = w ∧ regOfCode (0x28 ||| regBit w) = w := by
    intro w
    cases w <;> decide
  obtain rfl | rfl := hm
  · simp only [buildInstr] at h
    split at h <;> cases h
    exact (back _).1
  · simp only [buildInstr] at h
    split at h <;> cases h
    exact (back _).2

/-- The encoder gives the request back that an operation was decoded from: the code found there and the code of the
encoding belong to the same row, and the operands are the same. -/
theorem encodeInstr_of_decodeRequest {r : Request} {i : Instr} (h : decodeRequest r = .ok i) : encodeInstr i = r := by
  obtain ⟨row, hl, hb⟩ := decodeRequest_cases h
  obtain ⟨⟨row', hl', hm', -⟩, -⟩ := encoding_statement i
  obtain ⟨hrow, hc⟩ := lookupRow_some hl
  obtain ⟨hrow', hc'⟩ := lookupRow_some hl'
  obtain rfl := row_eq_of_mnemonic_eq hrow' hrow (hm'.trans (buildInstr_mnemonic hb))
  have hcode : (encodeInstr i).code = r.code :=
    code_eq_of_row hrow hc' hc fun hrw => regOfCode_encodeInstr_of_buildInstr hrw hb
  have hargs := encodeInstr_args_of_buildInstr hb
  calc encodeInstr i = ⟨(encodeInstr i).code, (encodeInstr i).args⟩ := rfl
    _ = r := by rw [hcode, hargs]

/-- The verdict IllegalOperation means that no row covers the code (R84). -/
theorem no_row_of_illegalOperation {r : Request} {d : Byte} (h : decodeRequest r = .error (.illegalOperation d)) :
    lookupRow r.code = none := by
  unfold decodeRequest at h
  split at h
  · assumption
  · split at h <;> cases h

end Sys2Proof

namespace Sys2Proof.Machine

/-! ### What a step refuses -/

/-- Without reset, a step answers the refusal of the fetch after the RTC agent's opportunity. -/
theorem step_of_fetch_error {s : State} {e : Refusal} (hr : s.resetLine = false)
    (hf : fetch (rtcTick Config.params s) = .error e) : step s = .refused e := by
  simp [step, hr, hf]

/-- With nothing in progress, the head of the host's list is issued. -/
theorem fetch_of_idle {s : State} {r : Request} {rest : List Request} (hp : s.progress = .idle)
    (hl : s.program = r :: rest) : fetch s = issue r rest s := by
  simp [fetch, currentInstr, hp, hl]

/-- A request that spells no operation is refused with the decoder's verdict (R84). -/
theorem issue_of_decode_error {r : Request} {e : DecodeError} (rest : List Request) (s : State)
    (hd : decodeRequest r = .error e) : issue r rest s = .error (decodeRefusal e) := by
  simp [issue, hd]

/-- An operation outside the admitted subset is refused (R85). -/
theorem issue_of_not_admitted {r : Request} {i : Instr} {s : State} (rest : List Request)
    (hd : decodeRequest r = .ok i) (ha : ¬ admitted s.level i.mnemonic = true) :
    issue r rest s = .error (.notAdmitted i.mnemonic) := by
  simp [issue, hd, ha]

/-! ### Fields as shifts and masks -/

/-- The mask of the lowest `n` bits, as arithmetic. -/
theorem lowMask_toNat {n : Nat} (h : n ≤ 8) : ((1#32 <<< n) - 1#32).toNat = 2 ^ n - 1 := by
  interval_cases n <;> rfl

/-- A field is the word shifted right and masked to the field's width (R73). -/
theorem field_eq_shift_and_mask (o n : Nat) (w : Word) (h : n ≤ 8) :
    (field o n w).setWidth 32 = (w >>> o) &&& ((1#32 <<< n) - 1#32) := by
  apply BitVec.eq_of_toNat_eq
  rw [BitVec.toNat_setWidth_of_le (by decide), field_toNat o n w h, BitVec.toNat_and, BitVec.toNat_ushiftRight,
    lowMask_toNat h, Nat.and_two_pow_sub_one_eq_mod, Nat.shiftRight_eq_div_pow]

/-- A byte placed at an offset that keeps all its bits is multiplied by the offset's weight (R73). -/
theorem place_toNat {o : Nat} (b : Byte) (h : o ≤ 24) : (place o b).toNat = b.toNat * 2 ^ o := by
  have hlt : b.toNat * 2 ^ o < 2 ^ 32 :=
    calc b.toNat * 2 ^ o < 2 ^ 8 * 2 ^ o := Nat.mul_lt_mul_of_pos_right b.isLt (Nat.two_pow_pos o)
      _ ≤ 2 ^ 8 * 2 ^ 24 := Nat.mul_le_mul_left _ (Nat.pow_le_pow_right (by decide) h)
  rw [place, BitVec.toNat_shiftLeft, BitVec.toNat_setWidth_of_le (by decide), Nat.shiftLeft_eq, Nat.mod_eq_of_lt hlt]

/-! ### What is decoded of a TIME word -/

/-- DECODE reads no bit of a TIME word outside its four fields, so neither the unused bits nor the 12h-mode flag
(R76, R128). -/
theorem decodedTime_congr_timeFields {tw tw' : Word} (dw : Word) (h : tw &&& 0x073F7F7F = tw' &&& 0x073F7F7F) :
    decodedTime tw dw = decodedTime tw' dw := by
  simp only [decodedTime, decSecond, decMinute, decHour, decWeekday, fieldValue,
    field_of_masked_eq 0 7 _ _ _ h (by decide), field_of_masked_eq 8 7 _ _ _ h (by decide),
    field_of_masked_eq 16 6 _ _ _ h (by decide), field_of_masked_eq 24 3 _ _ _ h (by decide)]

/-! ### How an operation can stop -/

/-- The answer of an operation that completes its step or faults OutOfContract. -/
def CompletesOrFaults (o : Out) : Prop :=
  (∃ t, o = .next t) ∨ ∃ m f, o = .fault (.outOfContract m f)

theorem completesOrFaults_next (t : State) : CompletesOrFaults (.next t) :=
  .inl ⟨t, rfl⟩

theorem completesOrFaults_fault (m : Mnemonic) (f : Field) : CompletesOrFaults (.fault (.outOfContract m f)) :=
  .inr ⟨m, f, rfl⟩

/-- A contract check faults with the bad field it finds, or lets the operation complete its step (R223). -/
theorem completesOrFaults_checked (f : Option Field) (m : Mnemonic) (t : State) :
    CompletesOrFaults (match f with | some e => .fault (.outOfContract m e) | none => .next t) := by
  cases f with
  | some e => exact completesOrFaults_fault m e
  | none => exact completesOrFaults_next t

/-- Every operation but PROBE, where nothing is in progress (R100 to R205). -/
theorem exec_completesOrFaults {i : Instr} {s : State} (hp : s.progress = .idle) (hi : i ≠ .probe) :
    CompletesOrFaults (exec i s) := by
  have start (o : Out) (h : CompletesOrFaults o) : CompletesOrFaults (whenIdle s o) := by
    rwa [whenIdle_of_idle s o hp]
  cases i with
  | probe => exact absurd rfl hi
  | bin2bcd v =>
    refine start _ ?_
    split
    · exact completesOrFaults_next _
    · exact completesOrFaults_fault _ _
  | encodeTime t => exact start _ (completesOrFaults_checked _ _ _)
  | encodeDate t => exact start _ (completesOrFaults_checked _ _ _)
  | encode t => exact start _ (completesOrFaults_checked _ _ _)
  | setTime t =>
    simp only [exec, execSetTime, hp, setTimeStart]
    split
    · exact completesOrFaults_checked _ _ _
    · exact completesOrFaults_next _
  | readTime =>
    simp only [exec, execReadTime, readTimeStep, hp]
    exact completesOrFaults_next _
  | _ => exact start _ (completesOrFaults_next _)

/-- PROBE starts in phase UNINIT and is refused in every other, where nothing is in progress (R185). -/
theorem exec_probe_of_idle {s : State} (hp : s.progress = .idle) :
    exec .probe s = if s.phase = .uninit then .next (probeStart Config.params s) else .refused .probeRepeated := by
  simp [exec, execProbe, probeStep, hp, uninitialised]

/-! ### The statements -/

/-- Settles O1: the encoding's row gives the operation back, and a decoded request has the row, the register and the
operands of the operation's encoding. -/
theorem decodeEncodeAgree : Obligations.DecodeEncodeAgree :=
  ⟨decodeRequest_encodeInstr, fun _ _ => encodeInstr_of_decodeRequest⟩

/-- Settles O2: exactly the codes that no row covers get the verdict IllegalOperation, which the step turns into its
refusal. -/
theorem unassignedCodesRefused : Obligations.UnassignedCodesRefused := by
  intro c args
  refine ⟨fun hc => ?_, fun hc d hd => ?_⟩
  · have hillegal := decodeRequest_of_no_row args ((lookupRow_eq_none_iff c).2 hc)
    refine ⟨hillegal, fun s rest hp hr hl => step_of_fetch_error hr ?_⟩
    rw [fetch_of_idle (s := rtcTick Config.params s) hp hl, issue_of_decode_error _ _ hillegal, decodeRefusal]
  · exact (lookupRow_eq_none_iff c).1 (no_row_of_illegalOperation hd) hc

/-- Settles O6: both sides as arithmetic on the values of the word and the byte. -/
theorem fieldsShiftAndMask : Obligations.FieldsShiftAndMask :=
  ⟨field_eq_shift_and_mask, fun _ b h => place_toNat b h⟩

/-- Settles O32: first the TIME word is exchanged, then the DATE word. -/
theorem decodeIgnoresUnusedBits : Obligations.DecodeIgnoresUnusedBits := by
  intro tw tw' dw dw' ht hd
  exact (decodedTime_congr_timeFields dw ht).trans (decodedTime_congr rfl hd)

/-- Settles O58: PROBE starts or is the second one, and every other operation completes its step or faults. -/
theorem nothingElseStops : Obligations.NothingElseStops := by
  intro i s hp
  by_cases hi : i = .probe
  · subst hi
    rw [exec_probe_of_idle hp]
    by_cases hu : s.phase = .uninit
    · exact .inl ⟨_, if_pos hu⟩
    · exact .inr (.inr ⟨rfl, hu, if_neg hu⟩)
  · obtain hnext | hfault := exec_completesOrFaults hp hi
    · exact .inl hnext
    · exact .inr (.inl hfault)

/-- Settles O3: a code of two rows would make their patterns agree under both masks. -/
theorem opcodeRowsDisjoint : Obligations.OpcodeRowsDisjoint :=
  opcodeTable_patterns_differ.imp fun hne _ ⟨ha, hb⟩ => hne (OpcodeRow.patterns_agree ha hb)

/-- Settles O4: each request is the encoding of its operation. -/
theorem codesDecodeAsWritten : Obligations.CodesDecodeAsWritten :=
  ⟨decodeRequest_encodeInstr (.bin2bcd 59), decodeRequest_encodeInstr (.decode 1 2),
    decodeRequest_encodeInstr (.rd32 .date), decodeRequest_encodeInstr (.wr32 .time 7),
    decodeRequest_encodeInstr (.livenessCheck 1 2), decodeRequest_encodeInstr .probe,
    decodeRequest_encodeInstr .readTime⟩

/-- Settles O5: the index bit of TIME is 0 and that of DATE is 1. -/
theorem pseudoInstructionsExpand : Obligations.PseudoInstructionsExpand :=
  ⟨⟨rfl, rfl⟩, ⟨rfl, rfl⟩, fun _ => ⟨⟨rfl, rfl⟩, rfl, rfl⟩⟩

/-- Settles O9: the request decodes to the operation it encodes, which the host's subset does not hold. -/
theorem hostLevelRefusesComponentOperations : Obligations.HostLevelRefusesComponentOperations := by
  intro s i rest hr hp hlevel hl hprobe hread hset
  have ha : ¬ admitted s.level i.mnemonic = true := by
    simp [admitted_iff, hlevel, hprobe, hread, hset]
  apply step_of_fetch_error hr
  rw [fetch_of_idle (s := rtcTick Config.params s) hp hl,
    issue_of_not_admitted (s := rtcTick Config.params s) _ (decodeRequest_encodeInstr i) ha]

end Sys2Proof.Machine
end

section
/-!
PROOFS. The BCD field conversions (spec/40_bcd_codec.md R100 to R107): what BIN2BCD and BCD2BIN answer, that the BCD
byte keeps the order of the values, the ranges of BCD2BIN, and that a single digit is its own BCD byte.
-/

namespace Sys2Proof.Machine

/-! ### The two operations -/

/-- BIN2BCD of a value in 0..99 ends with its BCD byte (R100). -/
theorem exec_bin2bcd_of_inContract {v : Int} {s : State} (hp : s.progress = .idle) (hv : 0 ≤ v ∧ v ≤ 99) :
    exec (.bin2bcd v) s = .next { s with trace := s.trace ++ [.result (.byte (bcdByte v.toNat))] } := by
  rw [exec, execBin2bcd, whenIdle_of_idle s _ hp, if_pos hv, finish_of_idle _ s hp]

/-- BIN2BCD of a value outside 0..99 faults (R100). -/
theorem exec_bin2bcd_of_outOfContract {v : Int} {s : State} (hp : s.progress = .idle) (hv : ¬ (0 ≤ v ∧ v ≤ 99)) :
    exec (.bin2bcd v) s = .fault (.outOfContract .bin2bcd .value) := by
  rw [exec, execBin2bcd, whenIdle_of_idle s _ hp, if_neg hv]

/-- BCD2BIN ends with the value of its formula, for every byte (R105). -/
theorem exec_bcd2bin_of_idle (b : Byte) {s : State} (hp : s.progress = .idle) :
    exec (.bcd2bin b) s = .next { s with trace := s.trace ++ [.result (.integer (bcd2bin b))] } := by
  rw [exec, execBcd2bin, whenIdle_of_idle s _ hp, finish_of_idle _ s hp]

/-! ### The BCD byte -/

/-- The BCD byte of a value in 0..99, as arithmetic (R100). -/
theorem bcdByte_toNat {v : Nat} (h : v ≤ 99) : (bcdByte v).toNat = v / 10 * 16 + v % 10 :=
  (bcdByte_spec v h).1

/-- BCD2BIN undoes BIN2BCD on 0..99 (R106). -/
theorem bcd2bin_bcdByte {v : Nat} (h : v ≤ 99) : bcd2bin (bcdByte v) = v := by
  obtain ⟨-, -, -, -, hinv⟩ := bcdByte_spec v h
  exact hinv

/-- The largest BCD byte is that of 99 (R101). -/
theorem bcdByte_le {v : Nat} (h : v ≤ 99) : (bcdByte v).toNat ≤ 0x99 := by
  rw [bcdByte_toNat h]
  omega

/-- Values in 0..99 with the same BCD byte are the same (R101). -/
theorem bcdByte_inj {v w : Nat} (hv : v ≤ 99) (hw : w ≤ 99) (h : bcdByte v = bcdByte w) : v = w :=
  calc v = bcd2bin (bcdByte v) := (bcd2bin_bcdByte hv).symm
    _ = bcd2bin (bcdByte w) := by rw [h]
    _ = w := bcd2bin_bcdByte hw

/-- The order of values in 0..99 is that of their BCD bytes (R101). -/
theorem bcdByte_lt_bcdByte {v w : Nat} (hw : w ≤ 99) (h : v < w) : (bcdByte v).toNat < (bcdByte w).toNat := by
  rw [bcdByte_toNat (show v ≤ 99 by omega), bcdByte_toNat hw]
  omega

/-- A single digit is its own BCD byte (R107). -/
theorem bcdByte_toNat_of_digit {v : Nat} (h : v ≤ 9) : (bcdByte v).toNat = v := by
  rw [bcdByte_toNat (show v ≤ 99 by omega)]
  omega

/-! ### The values of BCD2BIN -/

/-- BCD2BIN of a byte of one digit is the digit (R106, R107). -/
theorem bcd2bin_of_digit {b : Byte} (h : b.toNat ≤ 9) : bcd2bin b = b.toNat := by
  rw [bcd2bin_toNat]
  omega

/-- A byte whose upper digit is at most `d` gives at most `d * 10 + 15` (R106). -/
theorem bcd2bin_le_of_upper_digit {b : Byte} {d : Nat} (h : b.toNat / 16 ≤ d) : bcd2bin b ≤ d * 10 + 15 := by
  rw [bcd2bin_toNat]
  omega

/-- BCD2BIN gives at most 165 (R105). -/
theorem bcd2bin_le (b : Byte) : bcd2bin b ≤ 165 :=
  bcd2bin_le_of_upper_digit (d := 15) (by have := b.isLt; omega)

/-- A weekday field has three bits (R22). -/
theorem weekdayField_lt (tw : Word) : (field 24 3 tw).toNat < 8 := by
  rw [field_toNat 24 3 tw (by decide)]
  exact Nat.mod_lt _ (by decide)

/-! ### The statements -/

/-- Settles O16: the request is the operation's encoding, and the value is in contract or not. -/
theorem bin2bcdGivesBcdByte : Obligations.Bin2bcdGivesBcdByte := by
  intro v s hp
  exact ⟨decodeRequest_encodeInstr (.bin2bcd v), exec_bin2bcd_of_inContract hp,
    fun hv => exec_bin2bcd_of_outOfContract hp (by omega)⟩

/-- Settles O17: the nibbles are the value's decimal digits, BCD2BIN undoes the byte, and the bytes are ordered as the
values are. -/
theorem bin2bcdValidInjectiveMonotone : Obligations.Bin2bcdValidInjectiveMonotone := by
  refine ⟨fun v hv => ?_, fun _ _ => bcdByte_inj, fun _ _ _ => bcdByte_lt_bcdByte⟩
  obtain ⟨-, hupper, hlower, hvalid, -⟩ := bcdByte_spec v hv
  exact ⟨hupper, by omega, hlower, hvalid, bcdByte_le hv⟩

/-- Settles O18: the request is the operation's encoding, and the answer is the formula as arithmetic. -/
theorem bcd2binComputesFormula : Obligations.Bcd2binComputesFormula := by
  intro b s hp
  rw [← bcd2bin_toNat]
  exact ⟨decodeRequest_encodeInstr (.bcd2bin b), exec_bcd2bin_of_idle b hp, bcd2bin_le b⟩

/-- Settles O19: each conversion undoes the other, and a masked field bounds the upper digit. -/
theorem bcdConversionsInverse : Obligations.BcdConversionsInverse := by
  refine ⟨bcdByte_bcd2bin, fun _ => bcd2bin_bcdByte, ⟨rfl, rfl⟩, ⟨rfl, rfl, bcd2bin_le⟩, fun b hb => ?_, fun b hb => ?_,
    fun b hb => ?_⟩
  · exact bcd2bin_le_of_upper_digit (d := 7) (by omega)
  · exact bcd2bin_le_of_upper_digit (d := 3) (by omega)
  · have hdigit : bcd2bin b = b.toNat := bcd2bin_of_digit (by omega)
    exact ⟨hdigit, hdigit ▸ hb⟩

/-- Settles O20: a weekday is a single digit. -/
theorem weekdayBinaryEqualsBcd : Obligations.WeekdayBinaryEqualsBcd := by
  refine ⟨fun tw => ?_, fun v hv => ?_⟩
  · have hlt := weekdayField_lt tw
    exact bcd2bin_of_digit (by omega)
  · exact bcdByte_toNat_of_digit (by omega)

end Sys2Proof.Machine
end

section
/-!
PROOFS. The register packing (spec/41_register_packing.md R120 to R136): what each operation of the codec answers, the
bits of an encoded word, the two round trips, and which fields a word and a record share.
-/

namespace Sys2Proof.Machine

/-! ### The three encodes -/

/-- ENCODE_TIME of a record whose time fields are in contract ends with its TIME word (R120). -/
theorem exec_encodeTime_of_inContract {t : CalendarTime} {s : State} (hp : s.progress = .idle) (h : InContractTime t) :
    exec (.encodeTime t) s = .next { s with trace := s.trace ++ [.result (.word (timeWord t))] } := by
  rw [exec, execEncodeTime, whenIdle_of_idle s _ hp, (badTimeField_none t).2 h, finish_of_idle _ s hp]

/-- ENCODE_TIME of a record with a time field out of contract faults (R120). -/
theorem exec_encodeTime_of_outOfContract {t : CalendarTime} {s : State} (hp : s.progress = .idle)
    (h : ¬ InContractTime t) : ∃ f, exec (.encodeTime t) s = .fault (.outOfContract .encodeTime f) := by
  obtain ⟨f, hf⟩ := Option.ne_none_iff_exists'.1 (mt (badTimeField_none t).1 h)
  exact ⟨f, by rw [exec, execEncodeTime, whenIdle_of_idle s _ hp, hf]⟩

/-- ENCODE_DATE of a record whose date fields are in contract ends with its DATE word (R122). -/
theorem exec_encodeDate_of_inContract {t : CalendarTime} {s : State} (hp : s.progress = .idle) (h : InContractDate t) :
    exec (.encodeDate t) s = .next { s with trace := s.trace ++ [.result (.word (dateWord t))] } := by
  rw [exec, execEncodeDate, whenIdle_of_idle s _ hp, (badDateField_none t).2 h, finish_of_idle _ s hp]

/-- ENCODE_DATE of a record with a date field out of contract faults (R122). -/
theorem exec_encodeDate_of_outOfContract {t : CalendarTime} {s : State} (hp : s.progress = .idle)
    (h : ¬ InContractDate t) : ∃ f, exec (.encodeDate t) s = .fault (.outOfContract .encodeDate f) := by
  obtain ⟨f, hf⟩ := Option.ne_none_iff_exists'.1 (mt (badDateField_none t).1 h)
  exact ⟨f, by rw [exec, execEncodeDate, whenIdle_of_idle s _ hp, hf]⟩

/-- ENCODE of an in-contract record ends with its two words (R124). -/
theorem exec_encode_of_inContract {t : CalendarTime} {s : State} (hp : s.progress = .idle) (h : InContract t) :
    exec (.encode t) s = .next { s with trace := s.trace ++ [.result (.words (timeWord t) (dateWord t))] } := by
  rw [exec, execEncode, whenIdle_of_idle s _ hp, (badField_none t).2 h, finish_of_idle _ s hp]

/-- ENCODE of a record with any field out of contract faults (R124). -/
theorem exec_encode_of_outOfContract {t : CalendarTime} {s : State} (hp : s.progress = .idle) (h : ¬ InContract t) :
    ∃ f, exec (.encode t) s = .fault (.outOfContract .encode f) := by
  obtain ⟨f, hf⟩ := Option.ne_none_iff_exists'.1 (mt (badField_none t).1 h)
  exact ⟨f, by rw [exec, execEncode, whenIdle_of_idle s _ hp, hf]⟩

/-! ### The three decodes -/

/-- DECODE_TIME ends with the decoded time fields of the word (R127). -/
theorem exec_decodeTime_of_idle (tw : Word) {s : State} (hp : s.progress = .idle) :
    exec (.decodeTime tw) s = .next { s with
      trace := s.trace ++ [.result (.timeFields (decSecond tw) (decMinute tw) (decHour tw) (decWeekday tw))] } := by
  rw [exec, execDecodeTime, whenIdle_of_idle s _ hp, finish_of_idle _ s hp]

/-- DECODE_DATE ends with the decoded date fields of the word (R129). -/
theorem exec_decodeDate_of_idle (dw : Word) {s : State} (hp : s.progress = .idle) :
    exec (.decodeDate dw) s = .next { s with
      trace := s.trace ++ [.result (.dateFields (decMday dw) (decMonth dw) (decYear dw))] } := by
  rw [exec, execDecodeDate, whenIdle_of_idle s _ hp, finish_of_idle _ s hp]

/-- DECODE ends with its answer, at every plausibility check (R131). -/
theorem decodeStep_of_idle (p : Params) (tw dw : Word) {s : State} (hp : s.progress = .idle) :
    decodeStep p tw dw s = .next { s with trace := s.trace ++ [.result (decodeResult p tw dw)] } := by
  rw [decodeStep, whenIdle_of_idle s _ hp, finish_of_idle _ s hp]

/-! ### The bits of an encoded word -/

/-- A byte placed at offset 0 is only widened (R73). -/
theorem place_zero (b : Byte) : place 0 b = b.setWidth 32 :=
  BitVec.shiftLeft_zero _

/-- The BCD byte of a value in 0..99 is valid BCD (R101). -/
theorem validBcd_bcdByte {v : Nat} (h : v ≤ 99) : validBcd (bcdByte v) = true := by
  obtain ⟨-, -, -, hvalid, -⟩ := bcdByte_spec v h
  exact hvalid

/-- The TIME word of an in-contract record has no unused bit set (R121). -/
theorem timeWord_unused {t : CalendarTime} (h : InContractTime t) : timeWord t &&& unusedMask .time = 0 := by
  rw [← timeWord_masked t h]
  exact masked_clean .time _

/-- The TIME word of an in-contract record is in 24-hour mode (R121). -/
theorem timeWord_modeBit {t : CalendarTime} (h : InContractTime t) : (timeWord t).getLsbD 22 = false := by
  have agree : timeWord t &&& 0xF8C08080 = 0 &&& 0xF8C08080 := timeWord_clear t h
  exact mask_bit _ 0 _ agree 22 rfl

/-- The four fields of the TIME word of an in-contract record are valid BCD (R121). -/
theorem timeWord_validBcd {t : CalendarTime} (h : InContractTime t) :
    validBcd (field 0 7 (timeWord t)) = true ∧ validBcd (field 8 7 (timeWord t)) = true ∧
    validBcd (field 16 6 (timeWord t)) = true ∧ validBcd (field 24 3 (timeWord t)) = true := by
  obtain ⟨fs, fm, fh, fw⟩ := timeWord_fields t h
  obtain ⟨hs, hm, hh, hw⟩ := h
  rw [fs, fm, fh, fw]
  exact ⟨validBcd_bcdByte (by omega), validBcd_bcdByte (by omega), validBcd_bcdByte (by omega),
    validBcd_bcdByte (by omega)⟩

/-- The three fields of the DATE word of an in-contract record are valid BCD (R123). -/
theorem dateWord_validBcd {t : CalendarTime} (h : InContractDate t) :
    validBcd (field 0 6 (dateWord t)) = true ∧ validBcd (field 8 6 (dateWord t)) = true ∧
    validBcd (field 16 8 (dateWord t)) = true := by
  obtain ⟨fd, fo, fy⟩ := dateWord_fields t h
  obtain ⟨hd, ho, hy⟩ := h
  rw [fd, fo, fy]
  exact ⟨validBcd_bcdByte (by omega), validBcd_bcdByte (by omega), validBcd_bcdByte (by omega)⟩

/-! ### Words with the same fields -/

/-- Two words with the same field agree under a mask that lies within the field. -/
theorem masked_eq_of_field_eq (o n : Nat) {m v w : Word} (h : field o n v = field o n w)
    (hm : ∀ i < 32, m.getLsbD i = true → o ≤ i ∧ i < o + n ∧ i < o + 8) : v &&& m = w &&& m := by
  apply and_mask_congr
  intro i hi hbit
  obtain ⟨hlo, hhi, hbyte⟩ := hm i hi hbit
  have hfield := congrArg (fun b => BitVec.getLsbD b (i - o)) h
  simpa [field, BitVec.getLsbD_extractLsb', show i - o < 8 by omega, show i - o < n by omega,
    Nat.add_sub_cancel' hlo] using hfield

/-- A word with no bit outside a mask is its own part under the mask. -/
theorem eq_masked_of_rest_zero {w m rest : Word} (all : m ||| rest = BitVec.allOnes 32) (h : w &&& rest = 0) :
    w = w &&& m :=
  calc w = w &&& (m ||| rest) := by rw [all, BitVec.and_allOnes]
    _ = w &&& m ||| 0 := by rw [BitVec.and_or_distrib_left, h]
    _ = w &&& m := BitVec.or_zero

/-- A TIME word with its unused bits and bit 22 zero is made of its four fields. -/
theorem timeWord_split {w : Word} (h : w &&& 0xF8C08080 = 0) :
    w = w &&& secMask ||| w &&& minMask ||| w &&& hourMask ||| w &&& wdayMask := by
  simp only [← BitVec.and_or_distrib_left]
  exact eq_masked_of_rest_zero rfl h

/-- A DATE word with its unused bits zero is made of its three fields. -/
theorem dateWord_split {w : Word} (h : w &&& 0xFF00C0C0 = 0) :
    w = w &&& dayMask ||| w &&& monMask ||| w &&& yearMask := by
  simp only [← BitVec.and_or_distrib_left]
  exact eq_masked_of_rest_zero rfl h

section
variable {v w : Word}

theorem secMask_congr (h : field 0 7 v = field 0 7 w) : v &&& secMask = w &&& secMask :=
  masked_eq_of_field_eq 0 7 h (by decide)

theorem minMask_congr (h : field 8 7 v = field 8 7 w) : v &&& minMask = w &&& minMask :=
  masked_eq_of_field_eq 8 7 h (by decide)

theorem hourMask_congr (h : field 16 6 v = field 16 6 w) : v &&& hourMask = w &&& hourMask :=
  masked_eq_of_field_eq 16 6 h (by decide)

theorem wdayMask_congr (h : field 24 3 v = field 24 3 w) : v &&& wdayMask = w &&& wdayMask :=
  masked_eq_of_field_eq 24 3 h (by decide)

theorem dayMask_congr (h : field 0 6 v = field 0 6 w) : v &&& dayMask = w &&& dayMask :=
  masked_eq_of_field_eq 0 6 h (by decide)

theorem monMask_congr (h : field 8 6 v = field 8 6 w) : v &&& monMask = w &&& monMask :=
  masked_eq_of_field_eq 8 6 h (by decide)

theorem yearMask_congr (h : field 16 8 v = field 16 8 w) : v &&& yearMask = w &&& yearMask :=
  masked_eq_of_field_eq 16 8 h (by decide)

end

/-- The value of a field is decided by the bits under a mask that holds it. -/
theorem fieldValue_of_masked_eq {o n : Nat} {m v w : Word} (h : v &&& m = w &&& m)
    (hm : ∀ i < n, m.getLsbD (o + i) = true) : fieldValue o n v = fieldValue o n w := by
  rw [fieldValue, fieldValue, field_of_masked_eq o n m v w h hm]

/-! ### From a word to a record and back -/

/-- A weekday field is one digit below 8, so valid BCD whatever the word (R107). -/
theorem validBcd_weekdayField (tw : Word) : validBcd (field 24 3 tw) = true := by
  have hlt := weekdayField_lt tw
  exact (validBcd_iff _).2 (by omega)

/-- BCD2BIN of a valid BCD byte is a two-digit number (R106). -/
theorem bcd2bin_le_of_validBcd {b : Byte} (h : validBcd b = true) : bcd2bin b ≤ 99 := by
  have hdigits := (validBcd_iff b).1 h
  rw [bcd2bin_toNat]
  omega

/-- The time fields decoded from a word are in contract where the values of its fields are (R22, R27). -/
theorem inContractTime_decodedTime {tw : Word} (dw : Word) (hs : bcd2bin (field 0 7 tw) ≤ 59)
    (hm : bcd2bin (field 8 7 tw) ≤ 59) (hh : bcd2bin (field 16 6 tw) ≤ 23) (hw : bcd2bin (field 24 3 tw) ≤ 6) :
    InContractTime (decodedTime tw dw) := by
  simp only [InContractTime, decodedTime, decSecond, decMinute, decHour, decWeekday, fieldValue]
  omega

/-- The date fields decoded from a word are in contract where the values of its fields are (R23, R27). -/
theorem inContractDate_decodedTime (tw : Word) {dw : Word}
    (hd : 1 ≤ bcd2bin (field 0 6 dw) ∧ bcd2bin (field 0 6 dw) ≤ 31)
    (ho : 1 ≤ bcd2bin (field 8 6 dw) ∧ bcd2bin (field 8 6 dw) ≤ 12) : InContractDate (decodedTime tw dw) := by
  simp only [InContractDate, decodedTime, decMday, decMonth, decYear, fieldValue]
  omega

/-- A TIME word with no bit outside its fields, each valid BCD, is what its decoded record encodes to, where that record
is in contract (R135). -/
theorem timeWord_decodedTime {tw : Word} (dw : Word) (hclear : tw &&& 0xF8C08080 = 0)
    (hs : validBcd (field 0 7 tw) = true) (hm : validBcd (field 8 7 tw) = true)
    (hh : validBcd (field 16 6 tw) = true) (hc : InContractTime (decodedTime tw dw)) :
    timeWord (decodedTime tw dw) = tw := by
  obtain ⟨fs, fm, fh, fw⟩ := timeWord_fields _ hc
  have es : field 0 7 (timeWord (decodedTime tw dw)) = field 0 7 tw := fs.trans (bcdByte_bcd2bin _ hs)
  have em : field 8 7 (timeWord (decodedTime tw dw)) = field 8 7 tw := fm.trans (bcdByte_bcd2bin _ hm)
  have eh : field 16 6 (timeWord (decodedTime tw dw)) = field 16 6 tw := fh.trans (bcdByte_bcd2bin _ hh)
  have ew : field 24 3 (timeWord (decodedTime tw dw)) = field 24 3 tw :=
    fw.trans (bcdByte_bcd2bin _ (validBcd_weekdayField tw))
  rw [timeWord_split (timeWord_clear _ hc), secMask_congr es, minMask_congr em, hourMask_congr eh, wdayMask_congr ew,
    ← timeWord_split hclear]

/-- A DATE word with no bit outside its fields, each valid BCD, is what its decoded record encodes to, where that record
is in contract: the encode takes back the decode's re-basing of month and year (R135). -/
theorem dateWord_decodedTime (tw : Word) {dw : Word} (hclear : dw &&& 0xFF00C0C0 = 0)
    (hd : validBcd (field 0 6 dw) = true) (ho : validBcd (field 8 6 dw) = true)
    (hy : validBcd (field 16 8 dw) = true) (hc : InContractDate (decodedTime tw dw)) :
    dateWord (decodedTime tw dw) = dw := by
  obtain ⟨fd, fo, fy⟩ := dateWord_fields _ hc
  have hmonth : ((decodedTime tw dw).month + 1).toNat = bcd2bin (field 8 6 dw) := by
    simp [decodedTime, decMonth, fieldValue]
  have hyear : ((decodedTime tw dw).year % 100).toNat = bcd2bin (field 16 8 dw) := by
    have hle := bcd2bin_le_of_validBcd hy
    simp only [decodedTime, decYear, fieldValue]
    omega
  rw [hmonth, bcdByte_bcd2bin _ ho] at fo
  rw [hyear, bcdByte_bcd2bin _ hy] at fy
  have ed : field 0 6 (dateWord (decodedTime tw dw)) = field 0 6 dw := fd.trans (bcdByte_bcd2bin _ hd)
  rw [dateWord_split (dateWord_clear _ hc), dayMask_congr ed, monMask_congr fo, yearMask_congr fy,
    ← dateWord_split hclear]

/-! ### The statements -/

/-- Settles O25: the fields of an encoded word are BCD bytes, the rest of it is clear, and the year's byte is that of the
year modulo 100. -/
theorem encodedWordsClean : Obligations.EncodedWordsClean := by
  refine ⟨fun t h => ⟨timeWord_unused h, timeWord_modeBit h, timeWord_validBcd h⟩,
    fun t h => ⟨dateWord_clear t h, dateWord_validBcd h⟩, fun t y _ _ hy => ?_⟩
  rw [dateWord, dateWord, hy]

/-- Settles O29: the two words are the record's, and they decode to it with the year folded. -/
theorem calendarRoundTrip : Obligations.CalendarRoundTrip := by
  intro t s hp hc
  refine ⟨timeWord t, dateWord t, exec_encode_of_inContract hp hc, rfl, fun p => ⟨?_, fun hlo hhi hv => ?_⟩⟩
  · rw [decodeStep_of_idle p _ _ hp, decodeResult, decodedTime_encoded hc]
  · rw [decodeStep_of_idle p _ _ hp, decodeResult_encoded hc hlo hhi hv]

/-- Settles O30: the decoded record is in contract, and its word has the fields of the word it was decoded from. -/
theorem wordRoundTrip : Obligations.WordRoundTrip := by
  refine ⟨fun tw dw hclear vs vm vh hs hm hh hw => ?_, fun tw dw hclear vd vo vy hd hd' ho ho' => ?_⟩
  · have hc := inContractTime_decodedTime dw hs hm hh hw
    exact ⟨hc, timeWord_decodedTime dw hclear vs vm vh hc⟩
  · have hc := inContractDate_decodedTime tw ⟨hd, hd'⟩ ⟨ho, ho'⟩
    exact ⟨hc, dateWord_decodedTime tw hclear vd vo vy hc⟩

/-- Settles O31: a field of an encoded word is the BCD byte of one field of the record, and a decoded field is the value
of the bits under its mask. -/
theorem fieldsIndependent : Obligations.FieldsIndependent := by
  refine ⟨fun t u ⟨htt, htd⟩ ⟨hut, hud⟩ => ?_, fun v w => ?_⟩
  · obtain ⟨tsec, tmin, thour, twday⟩ := timeWord_fields t htt
    obtain ⟨usec, umin, uhour, uwday⟩ := timeWord_fields u hut
    obtain ⟨tday, tmon, tyear⟩ := dateWord_fields t htd
    obtain ⟨uday, umon, uyear⟩ := dateWord_fields u hud
    exact ⟨fun h => secMask_congr (by rw [tsec, usec, h]), fun h => minMask_congr (by rw [tmin, umin, h]),
      fun h => hourMask_congr (by rw [thour, uhour, h]), fun h => wdayMask_congr (by rw [twday, uwday, h]),
      fun h => dayMask_congr (by rw [tday, uday, h]), fun h => monMask_congr (by rw [tmon, umon, h]),
      fun h => yearMask_congr (by rw [tyear, uyear, h])⟩
  · exact ⟨fun h => fieldValue_of_masked_eq h (by decide), fun h => fieldValue_of_masked_eq h (by decide),
      fun h => fieldValue_of_masked_eq h (by decide), fun h => fieldValue_of_masked_eq h (by decide),
      fun h => fieldValue_of_masked_eq h (by decide),
      fun h => congrArg (· - 1) (fieldValue_of_masked_eq (o := 8) (n := 6) h (by decide)),
      fun h => congrArg (· + 100) (fieldValue_of_masked_eq (o := 16) (n := 8) h (by decide))⟩

/-- Settles O21: the request is the operation's encoding, and the time fields are in contract or not. -/
theorem encodeTimePacksFields : Obligations.EncodeTimePacksFields := by
  intro t s hp
  refine ⟨decodeRequest_encodeInstr (.encodeTime t), fun h => ?_, exec_encodeTime_of_outOfContract hp⟩
  rw [← place_zero]
  exact exec_encodeTime_of_inContract hp h

/-- Settles O22: the request is the operation's encoding, and the date fields are in contract or not. -/
theorem encodeDatePacksFields : Obligations.EncodeDatePacksFields := by
  intro t s hp
  refine ⟨decodeRequest_encodeInstr (.encodeDate t), fun h => ?_, exec_encodeDate_of_outOfContract hp⟩
  rw [← place_zero]
  exact exec_encodeDate_of_inContract hp h

/-- Settles O23: the two words are the record's TIME word and DATE word. -/
theorem encodeGivesBothWords : Obligations.EncodeGivesBothWords := by
  intro t s hp
  exact ⟨decodeRequest_encodeInstr (.encode t), fun h => ⟨timeWord t, dateWord t, exec_encode_of_inContract hp h,
    exec_encodeTime_of_inContract hp h.1, exec_encodeDate_of_inContract hp h.2⟩, exec_encode_of_outOfContract hp⟩

/-- Settles O26: the request is the operation's encoding, and each decoded field is the value of its bits. -/
theorem decodeTimeUnpacksFields : Obligations.DecodeTimeUnpacksFields := by
  intro tw s hp
  exact ⟨decodeRequest_encodeInstr (.decodeTime tw), exec_decodeTime_of_idle tw hp⟩

/-- Settles O27: the request is the operation's encoding, and each decoded field is the re-based value of its bits. -/
theorem decodeDateUnpacksFields : Obligations.DecodeDateUnpacksFields := by
  intro dw s hp
  exact ⟨decodeRequest_encodeInstr (.decodeDate dw), exec_decodeDate_of_idle dw hp⟩

/-- Settles O28: the record is the one that the two words decode to. -/
theorem decodeAsksPlausibility : Obligations.DecodeAsksPlausibility := by
  intro tw dw s hp
  exact ⟨decodeRequest_encodeInstr (.decode tw dw), decodedTime tw dw, exec_decodeTime_of_idle tw hp,
    exec_decodeDate_of_idle dw hp, decodeStep_of_idle Config.params tw dw hp⟩

end Sys2Proof.Machine
end

section
/-!
PROOFS. Register access (spec/42_register_access.md R150 to R157): the two bus transactions, the RTC agent and the
relation it may be narrowed to, and the invariant of registers, phase and operation in progress that every step keeps.
-/

namespace Sys2Proof.Machine

/-! ### The two bus transactions -/

/-- RD32 is one bus read where nothing is in progress (R150). -/
theorem exec_rd32_of_idle (w : Reg) {s : State} (hp : s.progress = .idle) :
    exec (.rd32 w) s = .next (afterRead Config.params w s) :=
  whenIdle_of_idle s _ hp

/-- WR32 is one bus write where nothing is in progress (R152). -/
theorem exec_wr32_of_idle (w : Reg) (v : Word) {s : State} (hp : s.progress = .idle) :
    exec (.wr32 w v) s = .next (afterWrite w v s) :=
  whenIdle_of_idle s _ hp

/-! ### The RTC agent -/

/-- Parameters whose RTC agent leads from the pair `q` to the pair `r` and leaves every other pair as it is. -/
def rtcLeading (p : Params) (q r : Word × Word) : Params :=
  { p with rtcMove := fun _ x => if x = q then r else x }

/-- An agent that leads along the ticks of an admitted relation, and otherwise rests, keeps within the relation. -/
theorem rtcWithin_leading {R : Word × Word → Word × Word → Prop} {q r : Word × Word} (p : Params)
    (hR : RtcStepAdmitted R) (hr : Relation.ReflTransGen (RtcTickTo R) q r) : RtcWithin R (rtcLeading p q r) := by
  refine ⟨hR, fun n x => ?_⟩
  by_cases hx : x = q
  · subst hx
    exact ⟨r, hr, by simp [rtcLeading]⟩
  · exact ⟨x, .refl, by simp [rtcLeading, hx]⟩

/-- The registers keep the contract bits of the pair that the agent leads to. -/
theorem rtcTick_leading (p : Params) (s : State) (r : Word × Word) :
    (rtcTick (rtcLeading p (s.time, s.date) r) s).time = r.1 &&& contractMask .time ∧
    (rtcTick (rtcLeading p (s.time, s.date) r) s).date = r.2 &&& contractMask .date := by
  simp [rtcLeading]

/-- From clean registers some agent within an admitted relation leads to each pair that its ticks reach (R156). -/
theorem exists_rtcTick_eq_of_ticks {R : Word × Word → Word × Word → Prop} {s : State} {r : Word × Word}
    (hR : RtcStepAdmitted R) (hs : RegsClean s) (hr : Relation.ReflTransGen (RtcTickTo R) (s.time, s.date) r) :
    ∃ p, RtcWithin R p ∧ (rtcTick p s).time = r.1 ∧ (rtcTick p s).date = r.2 := by
  obtain ⟨htime, hdate⟩ := rtcTick_leading Config.params s r
  obtain ⟨ctime, cdate⟩ := rtcTicks_clean hr hs
  rw [masked_eq_self .time _ ctime] at htime
  rw [masked_eq_self .date _ cdate] at hdate
  exact ⟨_, rtcWithin_leading Config.params hR hr, htime, hdate⟩

/-! ### The supported pairs -/

/-- BCD2BIN keeps the order of valid BCD bytes (R101). -/
theorem bcd2bin_le_bcd2bin {a b : Byte} (ha : validBcd a = true) (hb : validBcd b = true) (h : a ≤ b) :
    bcd2bin a ≤ bcd2bin b := by
  rw [validBcd_iff] at ha hb
  rw [BitVec.le_def] at h
  rw [bcd2bin_toNat, bcd2bin_toNat]
  omega

/-- A field between two BCD bytes is valid BCD, and its value is between theirs (R22, R23). -/
theorem rtcFieldIn_bounds {low high b : Byte} (hl : validBcd low = true) (hh : validBcd high = true)
    (h : rtcFieldIn low high b = true) :
    validBcd b = true ∧ bcd2bin low ≤ bcd2bin b ∧ bcd2bin b ≤ bcd2bin high := by
  simp only [rtcFieldIn, Bool.and_eq_true, decide_eq_true_eq] at h
  obtain ⟨⟨hb, hlow⟩, hhigh⟩ := h
  exact ⟨hb, bcd2bin_le_bcd2bin hl hb hlow, bcd2bin_le_bcd2bin hb hh hhigh⟩

/-- A supported TIME word is in 24-hour mode, and its fields are valid BCD in their ranges (R22). -/
theorem time_of_rtcSupported {q : Word × Word} (h : rtcSupported q = true) :
    q.1.getLsbD 22 = false ∧
    (validBcd (field 0 7 q.1) = true ∧ bcd2bin (field 0 7 q.1) ≤ 59) ∧
    (validBcd (field 8 7 q.1) = true ∧ bcd2bin (field 8 7 q.1) ≤ 59) ∧
    (validBcd (field 16 6 q.1) = true ∧ bcd2bin (field 16 6 q.1) ≤ 23) ∧ bcd2bin (field 24 3 q.1) ≤ 6 := by
  simp only [rtcSupported, Bool.and_eq_true, Bool.not_eq_true'] at h
  obtain ⟨⟨⟨⟨⟨⟨⟨hmode, hs⟩, hm⟩, hh⟩, hw⟩, -⟩, -⟩, -⟩ := h
  obtain ⟨vs, -, ls⟩ := rtcFieldIn_bounds rfl rfl hs
  obtain ⟨vm, -, lm⟩ := rtcFieldIn_bounds rfl rfl hm
  obtain ⟨vh, -, lh⟩ := rtcFieldIn_bounds rfl rfl hh
  obtain ⟨-, -, lw⟩ := rtcFieldIn_bounds rfl rfl hw
  exact ⟨hmode, ⟨vs, ls⟩, ⟨vm, lm⟩, ⟨vh, lh⟩, lw⟩

/-- The fields of a supported DATE word are valid BCD in their ranges (R23). -/
theorem date_of_rtcSupported {q : Word × Word} (h : rtcSupported q = true) :
    (validBcd (field 0 6 q.2) = true ∧ 1 ≤ bcd2bin (field 0 6 q.2) ∧ bcd2bin (field 0 6 q.2) ≤ 31) ∧
    (validBcd (field 8 6 q.2) = true ∧ 1 ≤ bcd2bin (field 8 6 q.2) ∧ bcd2bin (field 8 6 q.2) ≤ 12) ∧
    validBcd (field 16 8 q.2) = true := by
  simp only [rtcSupported, Bool.and_eq_true] at h
  obtain ⟨⟨⟨-, hd⟩, ho⟩, hy⟩ := h
  exact ⟨rtcFieldIn_bounds rfl rfl hd, rtcFieldIn_bounds rfl rfl ho, (rtcFieldIn_bounds rfl rfl hy).1⟩

/-! ### The registers stay clean -/

/-- A bus write keeps the registers clean (R152). -/
theorem afterWrite_regsClean (w : Reg) (v : Word) {s : State} (h : RegsClean s) : RegsClean (afterWrite w v s) :=
  setReg_regsClean w v s h

/-- PROBE keeps the registers clean: it writes them by its repair write at most (R185). -/
theorem probeStep_regsClean {p : Params} {s t : State} (hs : RegsClean s) (h : probeStep p s = .next t) :
    RegsClean t := by
  cases probeStep_effect h with
  | repair v pos => exact afterWrite_regsClean (s := s) .date v hs
  | _ => exact hs

/-- SET_TIME keeps the registers clean (R205). -/
theorem execSetTime_regsClean {c : CalendarTime} {s t : State} (hs : RegsClean s) (h : execSetTime c s = .next t) :
    RegsClean t := by
  obtain ⟨-, -, rfl⟩ | ⟨-, -, -, rfl⟩ | ⟨pos, -, rfl⟩ := execSetTime_cases c s t h
  · exact hs
  · exact afterWrite_regsClean (s := s) .time _ hs
  · cases pos with
    | timeWritten dw => exact afterWrite_regsClean (s := s) .date dw hs
    | dateWritten => exact hs

/-- One step of an operation keeps the registers clean. -/
theorem exec_regsClean {i : Instr} {s t : State} (hs : RegsClean s) (h : exec i s = .next t) : RegsClean t := by
  obtain ⟨-, -, r, rfl⟩ | ⟨w, -, -, rfl⟩ | ⟨w, v, -, -, rfl⟩ | ⟨-, h⟩ | ⟨-, h⟩ | ⟨c, -, h⟩ := exec_cases i s t h
  · exact hs
  · exact hs
  · exact afterWrite_regsClean w v hs
  · exact probeStep_regsClean hs h
  · obtain ⟨_, _, _, rfl⟩ := readTimeStep_frame h
    exact hs
  · exact execSetTime_regsClean hs h

/-! ### The operation in progress stays allowed -/

/-- Where nothing is in progress, nothing is required. -/
theorem progressOk_of_idle {s : State} (hp : s.progress = .idle) : ProgressOk s := by
  simp [ProgressOk, hp]

/-- What holds at a position inside PROBE. -/
theorem ProgressOk.probe {s : State} {pos : ProbePos} (h : ProgressOk s) (hp : s.progress = .probe pos) :
    ProbePosOk s pos := by
  rwa [ProgressOk, hp] at h

/-- READ_TIME is in progress only in phase READY (R200). -/
theorem ProgressOk.readTime {s : State} {pos : ReadPos} (h : ProgressOk s) (hp : s.progress = .readTime pos) :
    s.phase = .ready := by
  rwa [ProgressOk, hp] at h

/-- What holds at a position inside SET_TIME. -/
theorem ProgressOk.setTime {s : State} {c : CalendarTime} {pos : SetPos} (h : ProgressOk s)
    (hp : s.progress = .setTime c pos) : SetPosOk s c pos := by
  rwa [ProgressOk, hp] at h

/-- A first step of PROBE in phase UNINIT leaves PROBE at its first read, or nothing in progress (R185). -/
theorem probeStart_progressOk (p : Params) {s : State} (hu : s.phase = .uninit) : ProgressOk (probeStart p s) := by
  unfold probeStart
  split
  · exact hu
  · exact progressOk_of_idle rfl

/-- A later step of PROBE stays in phase UNINIT or ends PROBE, and goes to the wait only on the sentinel (R185). -/
theorem probeResume_progressOk (p : Params) {pos : ProbePos} {s : State} (hu : s.phase = .uninit)
    (hpos : ProbePosOk s pos) : ProgressOk (probeResume p pos s) := by
  cases pos with
  | modeRead r0 =>
    simp only [probeResume]
    split
    · exact progressOk_of_idle rfl
    · exact hu
  | liveRead r1 =>
    simp only [probeResume]
    split
    · next hsentinel => exact ⟨hu, hsentinel⟩
    · exact hu
  | waited r1 => exact hpos
  | confirmed r1 r2 =>
    simp only [probeResume]
    split
    · exact progressOk_of_idle rfl
    · exact hu
  | dateRead d =>
    simp only [probeResume]
    split
    · exact hu
    · exact progressOk_of_idle rfl
  | repaired => exact hu
  | logged => exact progressOk_of_idle rfl

/-- PROBE leaves an operation in progress that the phase allows. -/
theorem probeStep_progressOk {p : Params} {s t : State} (hs : ProgressOk s) (h : probeStep p s = .next t) :
    ProgressOk t := by
  obtain ⟨-, hu, rfl⟩ | ⟨pos, hp, rfl⟩ := probeStep_cases p s t h
  · exact probeStart_progressOk p hu
  · exact probeResume_progressOk p (phase_uninit_of_probe hs hp) (hs.probe hp)

/-- READ_TIME goes on in phase READY only (R200). -/
theorem readTimeStep_progressOk {p : Params} {s t : State} (hs : ProgressOk s) (h : readTimeStep p s = .next t) :
    ProgressOk t := by
  obtain ⟨-, rfl⟩ | ⟨pos, hp, rfl⟩ := readTimeStep_cases p s t h
  · unfold readTimeStart
    split
    · next ha =>
      have hr : s.phase = .ready := by simpa [adapterReady] using ha
      cases p.readOrder with
      | timeFirst => exact hr
      | dateFirst => exact hr
    · exact progressOk_of_idle rfl
  · have hr := hs.readTime hp
    cases pos with
    | gotTime tw => exact hr
    | gotDate dw => exact hr
    | gotBoth tw dw => exact progressOk_of_idle rfl

/-- SET_TIME goes on in phase READY only, with the DATE word of its record (R200, R205). -/
theorem execSetTime_progressOk {c : CalendarTime} {s t : State} (hs : ProgressOk s) (h : execSetTime c s = .next t) :
    ProgressOk t := by
  obtain ⟨-, -, rfl⟩ | ⟨-, hr, hc, rfl⟩ | ⟨pos, hp, rfl⟩ := execSetTime_cases c s t h
  · exact progressOk_of_idle rfl
  · exact ⟨hr, hc, rfl⟩
  · cases pos with
    | timeWritten dw =>
      obtain ⟨hr, hc, -⟩ := hs.setTime hp
      exact ⟨hr, hc⟩
    | dateWritten => exact progressOk_of_idle rfl

/-- One step of an operation leaves an operation in progress that the phase and the operands allow. -/
theorem exec_progressOk {i : Instr} {s t : State} (hs : ProgressOk s) (h : exec i s = .next t) : ProgressOk t := by
  obtain ⟨-, -, r, rfl⟩ | ⟨w, -, hp, rfl⟩ | ⟨w, v, -, hp, rfl⟩ | ⟨-, h⟩ | ⟨-, h⟩ | ⟨c, -, h⟩ := exec_cases i s t h
  · exact progressOk_of_idle rfl
  · exact progressOk_of_idle hp
  · exact progressOk_of_idle (by rw [afterWrite_progress, hp])
  · exact probeStep_progressOk hs h
  · exact readTimeStep_progressOk hs h
  · exact execSetTime_progressOk hs h

/-- A fetch keeps the invariant: it takes a request from the host's list at most. -/
theorem fetch_inv {i : Instr} {s t : State} (hs : Inv s) (h : fetch s = .ok (some (i, t))) : Inv t := by
  obtain ⟨program, rfl⟩ := fetch_frame h
  exact hs

/-- One step of an operation keeps the invariant. -/
theorem exec_inv {i : Instr} {s t : State} (hs : Inv s) (h : exec i s = .next t) : Inv t :=
  ⟨exec_regsClean hs.1 h, exec_progressOk hs.2 h⟩

/-! ### The statements -/

/-- Settles O15: the RTC agent's opportunity keeps the invariant, and so do the reset and the operation's step that
follow it. -/
theorem stepKeepsInvariant : Obligations.StepKeepsInvariant := by
  intro s t ⟨_, hprogress⟩ h
  have tick : Inv (rtcTick Config.params s) := ⟨rtcTick_regsClean _ s, rtcTick_progressOk _ s hprogress⟩
  obtain ⟨-, rfl⟩ | ⟨-, rfl⟩ | ⟨-, i, s₂, hf, hx⟩ := step_cases s t h
  · exact ⟨tick.1, progressOk_of_idle rfl⟩
  · exact tick
  · exact exec_inv (fetch_inv tick hf) hx

/-- Settles O59: one way an agent within the relation is its own witness, the other way the agent leads along the
ticks. -/
theorem rtcStepsWithinRelation : Obligations.RtcStepsWithinRelation := by
  intro R s hR hs
  refine ⟨fun p hp => ?_, fun _ hq => exists_rtcTick_eq_of_ticks hR hs hq⟩
  obtain ⟨r, hr, htime, hdate⟩ := rtcTick_of_within hp hs
  rw [htime, hdate]
  exact hr

/-- Settles O60: a supported pair is none of the listed ones, and from an unsupported pair one tick leads anywhere. -/
theorem narrowedRtcLeavesUnsupportedOpen : Obligations.NarrowedRtcLeavesUnsupportedOpen := by
  constructor
  · intro R p ⟨hR, _⟩ q r hbad
    refine hR q r (Bool.eq_false_iff.2 fun hsupported => ?_)
    obtain ⟨hmode, ⟨vs, ls⟩, ⟨vm, lm⟩, ⟨vh, lh⟩, lw⟩ := time_of_rtcSupported hsupported
    obtain ⟨⟨vd, ld⟩, ⟨vo, lo⟩, vy⟩ := date_of_rtcSupported hsupported
    simp only [hmode, vs, vm, vh, vd, vo, vy, Bool.false_eq_true, Bool.true_eq_false, false_or] at hbad
    omega
  · intro R s hR hs hunsupported t d
    exact exists_rtcTick_eq_of_ticks hR hs (.single ⟨(t, d), hR _ _ hunsupported, rfl⟩)

/-- Settles O11: the agent that leads to the given pair. -/
theorem rtcStepAnyPair : Obligations.RtcStepAnyPair :=
  ⟨fun _ _ => rfl, fun s t d => ⟨_, rtcTick_leading Config.params s (t, d)⟩⟩

/-- Settles O33: the requests are the operation's encodings, and RD32 is one bus read. -/
theorem rd32ReadsLiveRegister : Obligations.Rd32ReadsLiveRegister :=
  ⟨decodeRequest_encodeInstr (.rd32 .time), decodeRequest_encodeInstr (.rd32 .date),
    fun _ hp => ⟨exec_rd32_of_idle .time hp, exec_rd32_of_idle .date hp⟩⟩

/-- Settles O34: the requests are the operation's encodings, and WR32 is one bus write. -/
theorem wr32StoresContractBits : Obligations.Wr32StoresContractBits :=
  fun v => ⟨decodeRequest_encodeInstr (.wr32 .time v), decodeRequest_encodeInstr (.wr32 .date v),
    fun _ hp => ⟨exec_wr32_of_idle .time v hp, exec_wr32_of_idle .date v hp⟩⟩

end Sys2Proof.Machine
end

section
/-!
PROOFS. The Clock Guard (spec/43_clock_guard.md R170 to R190): the three checks, PROBE along its pseudocode, what PROBE
writes, and the four outcomes in which it ends.
-/

namespace Sys2Proof.Machine

/-! ### The three checks -/

/-- Bit 22 is the one bit of the word's mode mask (R25, R72). -/
theorem and_modeMask_eq_zero_iff (tw : Word) : tw &&& 0x00400000 = 0 ↔ tw.getLsbD 22 = false := by
  have hmask : (0x00400000 : Word) = BitVec.twoPow 32 22 := by decide
  rw [hmask, BitVec.and_twoPow]
  cases tw.getLsbD 22 <;> decide

/-- MODE_CHECK ends with its answer where nothing is in progress (R170). -/
theorem exec_modeCheck_of_idle (tw : Word) {s : State} (hp : s.progress = .idle) :
    exec (.modeCheck tw) s = .next { s with trace := s.trace ++ [.result (checkResult (modeCheck tw))] } := by
  rw [exec, execModeCheck, whenIdle_of_idle s _ hp, finish_of_idle _ s hp]

/-- LIVENESS_CHECK ends with its answer where nothing is in progress (R173). -/
theorem exec_livenessCheck_of_idle (r1 r2 : Word) {s : State} (hp : s.progress = .idle) :
    exec (.livenessCheck r1 r2) s =
      .next { s with trace := s.trace ++ [.result (checkResult (livenessCheck r1 r2))] } := by
  rw [exec, execLivenessCheck, whenIdle_of_idle s _ hp, finish_of_idle _ s hp]

/-- EPOCH_CHECK ends with its answer where nothing is in progress (R178). -/
theorem exec_epochCheck_of_idle (dw : Word) {s : State} (hp : s.progress = .idle) :
    exec (.epochCheck dw) s = .next { s with trace := s.trace ++ [.result (epochResult (epochCheck dw))] } := by
  rw [exec, execEpochCheck, whenIdle_of_idle s _ hp, finish_of_idle _ s hp]

/-- The decoded year byte is 38 or more exactly where the raw byte is 0x38 or more (R179). -/
theorem epochLimit_le_bcd2bin_iff (b : Byte) : 38 ≤ bcd2bin b ↔ 0x38 ≤ b.toNat := by
  have hvalue := bcd2bin_toNat b
  omega

/-! ### The steps of PROBE -/

/-- PROBE goes on from the position it stands at (R35). -/
theorem probeStep_of_probe (p : Params) {s : State} {pos : ProbePos} (hp : s.progress = .probe pos) :
    probeStep p s = .next (probeResume p pos s) := by
  simp [probeStep, hp]

/-- PROBE starts in phase UNINIT (R185). -/
theorem probeStep_of_uninit (p : Params) {s : State} (hp : s.progress = .idle) (hu : s.phase = .uninit) :
    probeStep p s = .next (probeStart p s) := by
  simp [probeStep, hp, uninitialised, hu]

/-- PROBE after its mode-check read (R185). -/
theorem probeResume_modeRead (p : Params) (s : State) (r0 : Word) :
    probeResume p (.modeRead r0) s =
      if r0.getLsbD 22 then failProbe .unsupportedMode s else probeRead p .time .liveRead s := by
  rw [probeResume, modeCheck_eq]
  cases r0.getLsbD 22 <;> rfl

/-- PROBE after its DATE read (R185). -/
theorem probeResume_dateRead (p : Params) (s : State) (d : Word) :
    probeResume p (.dateRead d) s =
      if 38 ≤ bcd2bin (field 16 8 d) then suspend (.probe .repaired) (afterWrite .date 0x00130101 s)
      else readyProbe s := by
  by_cases h : 38 ≤ bcd2bin (field 16 8 d)
  · simp [probeResume, epochCheck_eq, h]
  · simp [probeResume, epochCheck_eq, h]

/-- A step of PROBE keeps DATE, or is the repair write after a DATE read whose year asks for it (R188). -/
theorem probeStep_date {p : Params} {s t : State} (h : probeStep p s = .next t) :
    t.date = s.date ∨ ∃ d, s.progress = .probe (.dateRead d) ∧ 38 ≤ bcd2bin (field 16 8 d) ∧
      t = suspend (.probe .repaired) (afterWrite .date 0x00130101 s) := by
  obtain ⟨-, -, rfl⟩ | ⟨pos, hp, rfl⟩ := probeStep_cases p s t h
  · unfold probeStart
    split <;> exact .inl rfl
  · cases pos with
    | modeRead r0 =>
      rw [probeResume_modeRead]
      split <;> exact .inl rfl
    | liveRead r1 =>
      rw [probeResume_liveRead]
      split <;> exact .inl rfl
    | waited r1 => exact .inl rfl
    | confirmed r1 r2 =>
      rw [probeResume_confirmed]
      split <;> exact .inl rfl
    | dateRead d =>
      rw [probeResume_dateRead]
      split
      · next hyear => exact .inr ⟨d, hp, hyear, rfl⟩
      · exact .inl rfl
    | repaired => exact .inl rfl
    | logged => exact .inl rfl

/-! ### The outcomes of PROBE -/

/-- What follows the DATE read of `d`: the end in success, after the repair where the year asks for it (R185). -/
def EpochEvents (d : Word) (evs : List Event) : Prop :=
  (bcd2bin (field 16 8 d) < 38 ∧ evs = [.result .ready]) ∨
  (38 ≤ bcd2bin (field 16 8 d) ∧ evs = [.write .date 0x00130101, .log .epochRepair, .result .ready])

/-- The last events of a PROBE that passes the checks: the DATE read and what follows it (R185). -/
def ReadyEvents (evs : List Event) : Prop :=
  ∃ d tail, evs = .read .date d :: tail ∧ EpochEvents d tail

/-- The events of a liveness check that passes: one read, or the sentinel, the wait and a read of another word (R175). -/
def LiveEvents (evs : List Event) : Prop :=
  (∃ r1, r1 ≠ 0x01000000 ∧ evs = [.read .time r1]) ∨
  ∃ r2, r2 ≠ 0x01000000 ∧ evs = [.read .time 0x01000000, .wait, .read .time r2]

/-- The four outcomes of PROBE: the phase it ends in, with its events (R186, R187, R189). -/
inductive ProbeOutcome (p : Params) : Phase → List Event → Prop
  | regionUnavailable (hregion : p.regionOk = false) :
    ProbeOutcome p (.failed .regionUnavailable) [.result (.failed .regionUnavailable)]
  | unsupportedMode (hregion : p.regionOk = true) (r0 : Word) (hmode : r0.getLsbD 22 = true) :
    ProbeOutcome p (.failed .unsupportedMode) [.read .time r0, .result (.failed .unsupportedMode)]
  | notTicking (hregion : p.regionOk = true) (r0 : Word) (hmode : r0.getLsbD 22 = false) :
    ProbeOutcome p (.failed .notTicking) [.read .time r0, .read .time 0x01000000, .wait, .read .time 0x01000000,
      .result (.failed .notTicking)]
  | ready (hregion : p.regionOk = true) (r0 : Word) (hmode : r0.getLsbD 22 = false) (live tail : List Event)
      (hlive : LiveEvents live) (htail : ReadyEvents tail) :
    ProbeOutcome p .ready (.read .time r0 :: (live ++ tail))

/-- PROBE goes on from `s` to its end within `k` steps, the RTC agent moving between them, and ends in a phase and with
further events that `outcome` allows. -/
def ProbeEnds (p : Params) (k : Nat) (s : State) (outcome : Phase → List Event → Prop) : Prop :=
  ∃ t evs, runOp (probeStep p) (rtcTick p) k s = .next t ∧ t.progress = .idle ∧ t.trace = s.trace ++ evs ∧
    outcome t.phase evs

section
variable {p : Params} {k : Nat} {s t : State} {e : Event} {outcome : Phase → List Event → Prop}

/-- A step that ends PROBE. -/
theorem probeEnds_done (h : probeStep p s = .next t) (hi : t.progress = .idle) (he : t.trace = s.trace ++ [e])
    (ho : outcome t.phase [e]) : ProbeEnds p (k + 1) s outcome :=
  ⟨t, [e], runOp_done k h hi, hi, he, ho⟩

/-- A step that leaves PROBE in progress: its event comes before those of the rest. -/
theorem probeEnds_more (h : probeStep p s = .next t) (hi : t.progress ≠ .idle) (he : t.trace = s.trace ++ [e])
    (hrest : ProbeEnds p k (rtcTick p t) fun phase evs => outcome phase (e :: evs)) :
    ProbeEnds p (k + 1) s outcome := by
  obtain ⟨u, evs, hrun, hidle, htrace, ho⟩ := hrest
  refine ⟨u, e :: evs, (runOp_more k h hi).trans hrun, hidle, ?_, ho⟩
  rw [htrace, rtcTick_trace, he, List.append_assoc, List.singleton_append]

/-- A bus read of PROBE: the rest goes on from the position the read leads to. -/
theorem probeEnds_read {w : Reg} {pos : Word → ProbePos} (h : probeStep p s = .next (probeRead p w pos s))
    (hrest : ∀ (v : Word) (u : State), u.progress = .probe (pos v) →
      ProbeEnds p k u fun phase evs => outcome phase (.read w v :: evs)) :
    ProbeEnds p (k + 1) s outcome :=
  probeEnds_more h nofun (probeRead_trace ..) (hrest _ _ rfl)

/-- PROBE fails with the given reason. -/
theorem probeEnds_fail {reason : FailReason} (h : probeStep p s = .next (failProbe reason s))
    (ho : outcome (.failed reason) [.result (.failed reason)]) : ProbeEnds p (k + 1) s outcome :=
  probeEnds_done h rfl (failProbe_trace ..) ho

/-- From its DATE read PROBE ends within three steps in READY (R185). -/
theorem probeEnds_of_dateRead {d : Word} (hp : s.progress = .probe (.dateRead d))
    (hready : ∀ evs, EpochEvents d evs → outcome .ready evs) : ProbeEnds p (k + 3) s outcome := by
  have hstep := probeStep_of_probe p hp
  rw [probeResume_dateRead] at hstep
  by_cases hyear : 38 ≤ bcd2bin (field 16 8 d)
  · rw [if_pos hyear] at hstep
    refine probeEnds_more hstep nofun (afterWrite_trace ..) ?_
    refine probeEnds_more (probeStep_of_probe p rfl) nofun (emit_trace ..) ?_
    exact probeEnds_done (probeStep_of_probe p rfl) rfl (readyProbe_trace _) (hready _ (.inr ⟨hyear, rfl⟩))
  · rw [if_neg hyear] at hstep
    exact probeEnds_done hstep rfl (readyProbe_trace s) (hready _ (.inl ⟨by omega, rfl⟩))

/-- With the checks passed, PROBE reads DATE and ends within four steps in READY (R185). -/
theorem probeEnds_of_checked (h : probeStep p s = .next (probeRead p .date .dateRead s))
    (hready : ∀ evs, ReadyEvents evs → outcome .ready evs) : ProbeEnds p (k + 4) s outcome :=
  probeEnds_read h fun d _ hp => probeEnds_of_dateRead hp fun evs hevs => hready _ ⟨d, evs, rfl, hevs⟩

/-- From its wait PROBE reads TIME again and fails exactly where that read returns the sentinel too (R173, R175). -/
theorem probeEnds_of_waited (hp : s.progress = .probe (.waited 0x01000000))
    (hstopped : outcome (.failed .notTicking) [.read .time 0x01000000, .result (.failed .notTicking)])
    (hready : ∀ r2 evs, r2 ≠ 0x01000000 → ReadyEvents evs → outcome .ready (.read .time r2 :: evs)) :
    ProbeEnds p (k + 5) s outcome := by
  refine probeEnds_read (probeStep_of_probe p hp) fun r2 u hu => ?_
  have hstep := probeStep_of_probe p hu
  rw [probeResume_confirmed] at hstep
  by_cases hr2 : r2 = 0x01000000
  · rw [if_pos ⟨rfl, hr2⟩] at hstep
    subst hr2
    exact probeEnds_fail hstep hstopped
  · rw [if_neg fun hboth => hr2 hboth.2] at hstep
    exact probeEnds_of_checked hstep fun evs => hready r2 evs hr2

/-- With the mode check passed, PROBE ends within seven steps: in failure where TIME reads as the sentinel before and
after the wait, and in READY otherwise (R173, R175, R185). -/
theorem probeEnds_of_modeChecked (h : probeStep p s = .next (probeRead p .time .liveRead s))
    (hstopped : outcome (.failed .notTicking)
      [.read .time 0x01000000, .wait, .read .time 0x01000000, .result (.failed .notTicking)])
    (hready : ∀ live evs, LiveEvents live → ReadyEvents evs → outcome .ready (live ++ evs)) :
    ProbeEnds p (k + 7) s outcome := by
  refine probeEnds_read h fun r1 u hu => ?_
  have hstep := probeStep_of_probe p hu
  rw [probeResume_liveRead] at hstep
  by_cases hr1 : r1 = 0x01000000
  · rw [if_pos hr1] at hstep
    subst hr1
    refine probeEnds_more hstep nofun (emit_trace ..) (probeEnds_of_waited rfl hstopped fun r2 evs hr2 => ?_)
    exact hready [.read .time 0x01000000, .wait, .read .time r2] evs (.inr ⟨r2, hr2, rfl⟩)
  · rw [if_neg hr1] at hstep
    exact probeEnds_of_checked hstep fun evs => hready [.read .time r1] evs (.inl ⟨r1, hr1, rfl⟩)

/-- PROBE in phase UNINIT ends within eight steps in one of its four outcomes (R185, R265). -/
theorem probeEnds_of_uninit (hp : s.progress = .idle) (hu : s.phase = .uninit) :
    ProbeEnds p 8 s (ProbeOutcome p) := by
  have hstep := probeStep_of_uninit p hp hu
  unfold probeStart at hstep
  cases hregion : p.regionOk with
  | false =>
    rw [hregion] at hstep
    exact probeEnds_fail hstep (.regionUnavailable hregion)
  | true =>
    rw [hregion] at hstep
    refine probeEnds_read hstep fun r0 u hu => ?_
    have hmodeStep := probeStep_of_probe p hu
    rw [probeResume_modeRead] at hmodeStep
    cases hmode : r0.getLsbD 22 with
    | true =>
      rw [hmode] at hmodeStep
      exact probeEnds_fail hmodeStep (.unsupportedMode hregion r0 hmode)
    | false =>
      rw [hmode] at hmodeStep
      exact probeEnds_of_modeChecked hmodeStep (.notTicking hregion r0 hmode) (.ready hregion r0 hmode)

end

/-! ### The statements -/

/-- Settles O43: the outcome of the run, with its events written out. -/
theorem probeEndsInOneOfFourOutcomes : Obligations.ProbeEndsInOneOfFourOutcomes := by
  intro p s hp hu
  obtain ⟨t, evs, hrun, hidle, htrace, ho⟩ := probeEnds_of_uninit (p := p) hp hu
  refine ⟨t, evs, hrun, hidle, htrace, ?_⟩
  generalize t.phase = phase at ho ⊢
  cases ho with
  | regionUnavailable hregion => exact .inl ⟨hregion, rfl, rfl⟩
  | unsupportedMode hregion r0 hmode => exact .inr ⟨hregion, r0, .inl ⟨hmode, rfl, rfl⟩⟩
  | notTicking hregion r0 hmode => exact .inr ⟨hregion, r0, .inr (.inl ⟨hmode, rfl, rfl⟩)⟩
  | ready hregion r0 hmode live tail hlive htail =>
    obtain ⟨d, rest, rfl, hrest⟩ := htail
    exact .inr ⟨hregion, r0, .inr (.inr ⟨hmode, rfl, live, rest, d, rfl, hlive, hrest⟩)⟩

/-- Settles O44: the one step of PROBE that writes a register is the repair write, and it does not end PROBE. -/
theorem failedProbeWritesNothing : Obligations.FailedProbeWritesNothing := by
  intro s t h
  have htime : t.time = s.time := by
    obtain ⟨_, _, _, _, _, rfl⟩ := probeStep_frame h
    rfl
  obtain hdate | ⟨d, hp, hyear, rfl⟩ := probeStep_date h
  · exact ⟨htime, .inl hdate, fun _ _ => hdate⟩
  · refine ⟨htime, .inr ⟨rfl, d, hp, hyear⟩, fun ⟨e, hfailed⟩ hu => ?_⟩
    rw [suspend_phase, afterWrite_phase, hu] at hfailed
    cases hfailed

/-- Settles O37: the flag is the one bit under the mask. -/
theorem modeCheckTestsBit22 : Obligations.ModeCheckTestsBit22 := by
  intro tw
  refine ⟨decodeRequest_encodeInstr (.modeCheck tw), ?_⟩
  simp only [modeCheck_eq, and_modeMask_eq_zero_iff]
  cases tw.getLsbD 22 <;> rfl

/-- Settles O38: the check fails under the condition that it tests, and passes otherwise. -/
theorem livenessCheckTestsSentinel : Obligations.LivenessCheckTestsSentinel := by
  intro r1 r2
  refine ⟨decodeRequest_encodeInstr (.livenessCheck r1 r2), ?_⟩
  rw [livenessCheck_eq]
  split
  · next hstopped => exact ⟨iff_of_true rfl hstopped, iff_of_false nofun (not_not_intro hstopped)⟩
  · next hstopped => exact ⟨iff_of_false nofun hstopped, iff_of_true rfl hstopped⟩

/-- Settles O39: the year byte is the field of width 8 at offset 16. -/
theorem epochCheckTestsYear : Obligations.EpochCheckTestsYear :=
  fun dw => ⟨decodeRequest_encodeInstr (.epochCheck dw), epochCheck_eq dw⟩

/-- Settles O40: the two tests on the byte, and the year byte as arithmetic on the word. -/
theorem epochCheckEqualsByteTest : Obligations.EpochCheckEqualsByteTest := by
  refine ⟨epochLimit_le_bcd2bin_iff, fun dw => ?_⟩
  simp only [epochCheck_eq, epochLimit_le_bcd2bin_iff, field_toNat 16 8 dw (by decide)]

/-- Settles O41: each check ends with its answer, which is the error or Ok, the repair or none. -/
theorem checksAnswerAndChangeNothing : Obligations.ChecksAnswerAndChangeNothing := by
  intro s hp
  refine ⟨fun tw => ?_, fun r1 r2 => ?_, fun dw => ?_⟩
  · rw [exec_modeCheck_of_idle tw hp, modeCheck_eq, apply_ite checkResult]
    rfl
  · rw [exec_livenessCheck_of_idle r1 r2 hp, livenessCheck_eq, apply_ite checkResult]
    rfl
  · rw [exec_epochCheck_of_idle dw hp, epochCheck_eq, apply_ite epochResult]
    rfl

/-- Settles O42: where PROBE starts, and the line it goes on with at each position. -/
theorem probeFollowsPseudocode : Obligations.ProbeFollowsPseudocode := by
  refine ⟨decodeRequest_encodeInstr .probe, fun s => ?_⟩
  have resume {pos : ProbePos} (hp : s.progress = .probe pos) :
      exec .probe s = .next (probeResume Config.params pos s) := probeStep_of_probe Config.params hp
  refine ⟨fun hp hu => ?_, fun hp hu => probeStep_of_uninit Config.params hp hu, fun r0 hp => ?_, fun r1 hp => resume hp,
    fun r1 hp => resume hp, fun r1 r2 hp => ?_, fun d hp => ?_, resume, resume⟩
  · rw [exec_probe_of_idle hp, if_neg hu]
  · rw [resume hp, probeResume_modeRead]
    rfl
  · rw [resume hp, probeResume_confirmed]
    rfl
  · rw [resume hp, probeResume_dateRead]
    rfl

end Sys2Proof.Machine
end

section
/-!
PROOFS. The Device Adapter (spec/44_device_adapter.md R200 to R207): READ_TIME and SET_TIME along their pseudocode, the
three steps in which each ends, and the torn read and the torn write that the steps leave room for.
-/

namespace Sys2Proof.Machine

/-! ### Availability -/

/-- In phase READY the adapter is available (R200). -/
theorem adapterReady_of_ready {s : State} (hr : s.phase = .ready) : adapterReady s = true :=
  decide_eq_true hr

/-- Outside phase READY the adapter is not available (R200). -/
theorem adapterReady_of_notReady {s : State} (hr : s.phase ≠ .ready) : adapterReady s = false :=
  decide_eq_false hr

/-! ### The steps of READ_TIME -/

/-- READ_TIME goes on from the position it stands at (R35). -/
theorem readTimeStep_of_readTime (p : Params) {s : State} {pos : ReadPos} (hp : s.progress = .readTime pos) :
    readTimeStep p s = .next (readTimeResume p pos s) := by
  simp [readTimeStep, hp]

/-- READ_TIME starts where nothing is in progress (R201). -/
theorem readTimeStep_of_idle (p : Params) {s : State} (hp : s.progress = .idle) :
    readTimeStep p s = .next (readTimeStart p s) := by
  simp [readTimeStep, hp]

/-- READ_TIME starts in phase READY with the read that READ_ORDER puts first (R201). -/
theorem readTimeStart_of_ready (p : Params) {s : State} (hr : s.phase = .ready) :
    readTimeStart p s = if p.readOrder = .timeFirst then
        suspend (.readTime (.gotTime (readValue p .time s))) (afterRead p .time s)
      else suspend (.readTime (.gotDate (readValue p .date s))) (afterRead p .date s) := by
  rw [readTimeStart, if_pos (adapterReady_of_ready hr)]
  cases p.readOrder <;> rfl

/-- READ_TIME answers NoDevice outside phase READY (R200). -/
theorem exec_readTime_of_notReady {s : State} (hp : s.progress = .idle) (hr : s.phase ≠ .ready) :
    exec .readTime s = .next { s with trace := s.trace ++ [.result (.err .noDevice)] } := by
  rw [exec, execReadTime, readTimeStep_of_idle _ hp, readTimeStart, adapterReady_of_notReady hr,
    ← finish_of_idle _ s hp]
  rfl

/-! ### The steps of SET_TIME -/

/-- SET_TIME goes on from the position it stands at (R35). -/
theorem execSetTime_of_setTime {c : CalendarTime} {s : State} {pos : SetPos} (hp : s.progress = .setTime c pos) :
    execSetTime c s = .next (setTimeResume c pos s) := by
  simp [execSetTime, hp]

/-- SET_TIME starts where nothing is in progress (R205). -/
theorem execSetTime_of_idle (c : CalendarTime) {s : State} (hp : s.progress = .idle) :
    execSetTime c s = setTimeStart c s := by
  simp [execSetTime, hp]

/-- SET_TIME answers NoDevice outside phase READY, whatever the record (R200). -/
theorem exec_setTime_of_notReady (c : CalendarTime) {s : State} (hp : s.progress = .idle) (hr : s.phase ≠ .ready) :
    exec (.setTime c) s = .next { s with trace := s.trace ++ [.result (.err .noDevice)] } := by
  rw [exec, execSetTime_of_idle c hp, setTimeStart, adapterReady_of_notReady hr, ← finish_of_idle _ s hp]
  rfl

/-- SET_TIME of a record out of contract faults before either write (R205, R220). -/
theorem exec_setTime_of_outOfContract {c : CalendarTime} {s : State} (hp : s.progress = .idle)
    (hr : s.phase = .ready) (hc : ¬ InContract c) : ∃ f, exec (.setTime c) s = .fault (.outOfContract .setTime f) := by
  obtain ⟨f, hf⟩ := Option.ne_none_iff_exists'.1 (mt (badField_none c).1 hc)
  exact ⟨f, by rw [exec, execSetTime_of_idle c hp, setTimeStart, if_pos (adapterReady_of_ready hr), hf]⟩

/-- SET_TIME of a record in contract starts with the TIME write (R205). -/
theorem exec_setTime_of_inContract {c : CalendarTime} {s : State} (hp : s.progress = .idle) (hr : s.phase = .ready)
    (hc : InContract c) : exec (.setTime c) s =
      .next (suspend (.setTime c (.timeWritten (dateWord c))) (afterWrite .time (timeWord c) s)) := by
  rw [exec, execSetTime_of_idle c hp, setTimeStart, if_pos (adapterReady_of_ready hr), (badField_none c).2 hc]

/-- The TIME write of a record in contract stores its TIME word whole (R121, R152). -/
theorem afterWrite_timeWord {c : CalendarTime} (hc : InContractTime c) (s : State) :
    afterWrite .time (timeWord c) s =
      { s with time := timeWord c, trace := s.trace ++ [.write .time (timeWord c)] } := by
  rw [afterWrite, setReg, timeWord_masked c hc, emit]

/-! ### The whole operations -/

/-- The events of a READ_TIME in phase READY: the RTC agent moves between the two reads, and the answer is the decoded
pair of the two words read (R201). -/
def readTimeEvents (p : Params) (s : State) : List Event :=
  match p.readOrder with
  | .timeFirst =>
    let tw := readValue p .time s
    let dw := readValue p .date (rtcTick p (afterRead p .time s))
    [.read .time tw, .read .date dw, .result (decodeResult p tw dw)]
  | .dateFirst =>
    let dw := readValue p .date s
    let tw := readValue p .time (rtcTick p (afterRead p .date s))
    [.read .date dw, .read .time tw, .result (decodeResult p tw dw)]

/-- READ_TIME in phase READY ends within three steps with these events (R201, R265). -/
theorem readTime_ends (p : Params) {s : State} (hp : s.progress = .idle) (hr : s.phase = .ready) :
    ∃ t, runOp (readTimeStep p) (rtcTick p) 3 s = .next t ∧ t.progress = .idle ∧ t.phase = .ready ∧
      t.trace = s.trace ++ readTimeEvents p s := by
  refine ⟨_, runOp_readTime p (rtcTick p) (rtcTick_progress p) s hp hr, ?_⟩
  rw [readTimeEvents]
  cases p.readOrder with
  | timeFirst => exact ⟨rfl, hr, by simp [readValue, reg]⟩
  | dateFirst => exact ⟨rfl, hr, by simp [readValue, reg]⟩

/-- SET_TIME of a record in contract ends in phase READY within three steps, with its two writes and Success, whatever
the RTC agent does between them (R205, R265). -/
theorem setTime_ends (p : Params) {c : CalendarTime} {s : State} (hc : InContract c) (hp : s.progress = .idle)
    (hr : s.phase = .ready) : ∃ t, runOp (execSetTime c) (rtcTick p) 3 s = .next t ∧ t.progress = .idle ∧
      t.phase = .ready ∧
      t.trace = s.trace ++ [.write .time (timeWord c), .write .date (dateWord c), .result .success] :=
  ⟨_, runOp_setTime c (rtcTick p) (rtcTick_progress p) s hc hp hr, rfl, hr, by simp⟩

/-! ### The torn read -/

/-- Parameters that tear READ_TIME: at each opportunity the RTC agent moves to the pair `q`, the unused bits read as
zero, and the plausibility check accepts every record. -/
def tearingParams (o : ReadOrder) (q : Word × Word) : Params :=
  { Config.params with
    readOrder := o
    isValid := fun _ => true
    rtcMove := fun _ _ => q
    unusedDraw := fun _ => 0 }

/-- Where the unused bits read as zero, a read returns the contract bits of the register (R150). -/
theorem readValue_tearingParams (o : ReadOrder) (q : Word × Word) (w : Reg) (s : State) :
    readValue (tearingParams o q) w s = reg w s &&& contractMask w := by
  simp [readValue, tearingParams]

/-- From clean registers READ_TIME under the tearing parameters reads its first word before the move to the clean pair
`q` and its second after it, and answers the torn record (R202). -/
theorem readTimeEvents_tearingParams (o : ReadOrder) {s : State} {q : Word × Word} (hs : RegsClean s)
    (hq : q.1 &&& unusedMask .time = 0 ∧ q.2 &&& unusedMask .date = 0) :
    readTimeEvents (tearingParams o q) s = (match o with
      | .timeFirst => [.read .time s.time, .read .date q.2, .result (.calendar (decodedTime s.time q.2))]
      | .dateFirst => [.read .date s.date, .read .time q.1, .result (.calendar (decodedTime q.1 s.date))]) := by
  obtain ⟨htime, hdate⟩ := hs
  obtain ⟨htime', hdate'⟩ := hq
  cases o with
  | timeFirst =>
    simp only [readTimeEvents, readValue_tearingParams]
    simp [tearingParams, reg, decodeResult, masked_eq_self .time _ htime, masked_eq_self .date _ hdate']
  | dateFirst =>
    simp only [readTimeEvents, readValue_tearingParams]
    simp [tearingParams, reg, decodeResult, masked_eq_self .date _ hdate, masked_eq_self .time _ htime']

/-! ### Reset inside an operation -/

/-- With the reset line up a step is the RTC agent's opportunity and then the reset, whatever is in progress (R250). -/
theorem step_of_resetLine {s : State} (h : s.resetLine = true) :
    step s = .next (hostReset (rtcTick Config.params s)) := by
  simp [step, h]

/-- An issued SET_TIME takes its first step after the RTC agent's opportunity (R14, R80). -/
theorem step_of_issued_setTime {s : State} {c : CalendarTime} {rest : List Request} (hreset : s.resetLine = false)
    (hp : s.progress = .idle) (hl : s.program = encodeInstr (.setTime c) :: rest) :
    step s = exec (.setTime c) { rtcTick Config.params s with program := rest } :=
  step_of_fetch hreset (fetch_of_head hp hl (decodeRequest_encodeInstr _)
    ((admitted_iff _ _).2 (.inr (.inr (.inr rfl)))))

/-! ### The statements -/

/-- Settles O48: the two operations as a whole, with the words that READ_TIME reads. -/
theorem adapterOperationsEnd : Obligations.AdapterOperationsEnd := by
  intro p s hp hr
  refine ⟨?_, fun c hc => setTime_ends p hc hp hr⟩
  obtain ⟨t, hrun, hidle, hready, htrace⟩ := readTime_ends p hp hr
  rw [readTimeEvents] at htrace
  cases ho : p.readOrder with
  | timeFirst =>
    rw [ho] at htrace
    exact ⟨t, _, _, hrun, hidle, hready, htrace⟩
  | dateFirst =>
    rw [ho] at htrace
    exact ⟨t, _, _, hrun, hidle, hready, htrace⟩

/-- Settles O49: the parameters whose RTC agent moves to the given pair. -/
theorem tornReadAdmitted : Obligations.TornReadAdmitted := by
  intro o s t₁ d₁ hs hp hr ht hd
  obtain ⟨t, hrun, -, -, htrace⟩ := readTime_ends (tearingParams o (t₁, d₁)) hp hr
  rw [readTimeEvents_tearingParams o hs ⟨ht, hd⟩] at htrace
  exact ⟨_, t, rfl, hrun, htrace⟩

/-- Settles O51: the step is the TIME write, which leaves DATE to a later step; a reset in its place drops the position
and with it the pending word. -/
theorem tornWriteReachable : Obligations.TornWriteReachable := by
  intro s c rest hreset hp hr hc hl
  refine ⟨_, (step_of_issued_setTime hreset hp hl).trans (exec_setTime_of_inContract hp hr hc),
    timeWord_masked c hc.1, rfl, rfl, _, step_of_resetLine rfl, rfl, rfl, rfl⟩

/-- Settles O45: the first line of both pseudocodes. -/
theorem adapterAnswersNoDevice : Obligations.AdapterAnswersNoDevice :=
  fun _ hp hr => ⟨exec_readTime_of_notReady hp hr, fun t => exec_setTime_of_notReady t hp hr⟩

/-- Settles O46: how READ_TIME starts, and the line it goes on with at each position. -/
theorem readTimeFollowsPseudocode : Obligations.ReadTimeFollowsPseudocode := by
  refine ⟨decodeRequest_encodeInstr .readTime, fun s => ?_⟩
  have resume {pos : ReadPos} (hp : s.progress = .readTime pos) :
      exec .readTime s = .next (readTimeResume Config.params pos s) := readTimeStep_of_readTime Config.params hp
  refine ⟨exec_readTime_of_notReady, fun hp hr => ?_, fun _ => resume, fun _ => resume, fun _ _ => resume⟩
  rw [exec, execReadTime, readTimeStep_of_idle _ hp, readTimeStart_of_ready _ hr]
  rfl

/-- Settles O47: how SET_TIME starts, by the phase and the record, and the line it goes on with at each position. -/
theorem setTimeFollowsPseudocode : Obligations.SetTimeFollowsPseudocode := by
  intro c s
  refine ⟨decodeRequest_encodeInstr (.setTime c), exec_setTime_of_notReady c, exec_setTime_of_outOfContract,
    fun hp hr hc => ?_, fun _ => execSetTime_of_setTime, execSetTime_of_setTime⟩
  rw [exec_setTime_of_inContract hp hr hc, afterWrite_timeWord hc.1]
  rfl

end Sys2Proof.Machine
end

section
/-!
PROOFS. The errors (spec/60_exceptions.md R220 to R223): which field an OutOfContract fault of ENCODE names, and the
codes and classes of the error kinds.
-/

namespace Sys2Proof.Machine

/-! ### The field a fault names -/

/-- A check that finds a field or goes on, followed by another check. -/
theorem ite_some_or (c : Prop) [Decidable c] (f : Field) (x y : Option Field) :
    (if c then some f else x).or y = if c then some f else x.or y := by
  rw [apply_ite (Option.or · y), Option.some_or]

/-- The check of the seven fields is that of the time fields and then that of the date fields (R223). -/
theorem badField_eq_or (t : CalendarTime) : badField t = (badTimeField t).or (badDateField t) := by
  rw [badField]
  cases badTimeField t <;> rfl

/-- The check of the seven fields finds the first one out of range in the order second, minute, hour, weekday, mday,
month, year (R223). -/
theorem badField_of_outOfContract {t : CalendarTime} (h : ¬ InContract t) :
    badField t = some
      (if t.second < 0 ∨ 59 < t.second then .second
       else if t.minute < 0 ∨ 59 < t.minute then .minute
       else if t.hour < 0 ∨ 23 < t.hour then .hour
       else if t.weekday < 0 ∨ 6 < t.weekday then .weekday
       else if t.mday < 1 ∨ 31 < t.mday then .mday
       else if t.month < 0 ∨ 11 < t.month then .month
       else .year) := by
  have found : badField t ≠ none := mt (badField_none t).1 h
  simp only [badField_eq_or, badTimeField, badDateField, ite_some_or, Option.none_or, not_and_or, not_le] at found ⊢
  -- One case for each field as the first one out of range, and one where none is, which `found` excludes.
  split_ifs at found ⊢
  iterate 7 rfl
  exact absurd rfl found

/-- ENCODE faults with the field that the check finds (R124, R223). -/
theorem exec_encode_of_badField {t : CalendarTime} {s : State} {f : Field} (hp : s.progress = .idle)
    (hf : badField t = some f) : exec (.encode t) s = .fault (.outOfContract .encode f) := by
  rw [exec, execEncode, whenIdle_of_idle s _ hp, hf]

/-! ### The statements -/

/-- Settles O24: ENCODE's fault names the field that its check finds. -/
theorem faultNamesFirstBadField : Obligations.FaultNamesFirstBadField :=
  fun _ _ hp hc => exec_encode_of_badField hp (badField_of_outOfContract hc)

/-- Settles O53: each kind's row of the two tables. -/
theorem errorCodesAndClasses : Obligations.ErrorCodesAndClasses :=
  ⟨⟨rfl, rfl⟩, ⟨rfl, rfl⟩, ⟨rfl, rfl⟩, ⟨rfl, rfl⟩, ⟨rfl, rfl⟩, ⟨rfl, rfl⟩, ⟨rfl, rfl⟩, ⟨rfl, rfl⟩⟩

end Sys2Proof.Machine
end

section
/-!
PROOFS. Reset and the end of a run (spec/70_reset_and_hazards.md R250, R266): what a step does with the reset line up,
and where the host has no further operation.
-/

namespace Sys2Proof.Machine

/-! ### The end of a run -/

/-- With nothing in progress and nothing left to issue, there is nothing to run (R266). -/
theorem fetch_of_nothing_to_issue {s : State} (hp : s.progress = .idle) (hl : s.program = []) :
    fetch s = .ok none := by
  simp [fetch, currentInstr, hp, hl]

/-- The RTC agent's opportunity does not end the end of a run. -/
theorem rtcTick_endOfRun (p : Params) {s : State} (h : EndOfRun s) : EndOfRun (rtcTick p s) := by
  rwa [EndOfRun, rtcTick_progress, rtcTick_program, rtcTick_resetLine]

/-- At the end of a run a step is the RTC agent's opportunity and nothing else (R266). -/
theorem step_of_endOfRun {s : State} (h : EndOfRun s) : step s = .next (rtcTick Config.params s) := by
  have hfetch : fetch (rtcTick Config.params s) = .ok none := by
    obtain ⟨hp, hl, -⟩ := rtcTick_endOfRun Config.params h
    exact fetch_of_nothing_to_issue hp hl
  obtain ⟨-, -, hreset⟩ := h
  simp [step, hreset, hfetch]

/-! ### The statements -/

/-- Settles O10: the step is the RTC agent's opportunity, which keeps the end of the run and writes only the registers
and the counter. -/
theorem endOfRunOnlyCounterMoves : Obligations.EndOfRunOnlyCounterMoves :=
  fun _ h => ⟨_, step_of_endOfRun h, rtcTick_endOfRun _ h, rfl⟩

/-- Settles O12: a step with the reset line up is the RTC agent's opportunity and then the reset, which leaves the
registers as it finds them. -/
theorem resetKeepsTimeAndDate : Obligations.ResetKeepsTimeAndDate :=
  ⟨fun s => ⟨hostReset_phase s, hostReset_trace s, hostReset_time s, hostReset_date s⟩,
    fun _ hreset => ⟨_, step_of_resetLine hreset, hostReset_phase _, hostReset_trace _, hostReset_time _,
      hostReset_date _⟩⟩

end Sys2Proof.Machine
end
